-- ==== Sys2Proof/Word.lean ====
section
/-! DEFINITION. The widths of the machine's values: bytes, 32-bit words, 16-bit immediates. -/

namespace Sys2Proof

/-- A byte: 8 bits, bit 0 the least significant (R5 "Byte size", R8). -/
abbrev Byte := BitVec 8

/-- The contents of a general register, of `pc`, of `rem` and of `fpc`: a 32-bit pattern
(R5 XLEN, REMW, PCW). -/
abbrev Word := BitVec 32

/-- The immediate of LOAD: 16 bits, unsigned (R5 IMMW). -/
abbrev Half := BitVec 16

end Sys2Proof
end

