-- ==== Sys2Proof/Machine/Number.lean ====
section
/-! DEFINITION. The readings of a 32-bit pattern as a number, and back (R9). -/

namespace Sys2Proof.Machine

/-- `s32(v)`: the signed integer the pattern denotes in two's complement (R9). -/
def s32 (v : Word) : Int := v.toInt

/-- `u32(v)`: the unsigned integer the pattern denotes (R9). -/
def u32 (v : Word) : Nat := v.toNat

/-- `wrap32(n)`: the pattern `p` with `u32(p) = n mod 2^32` (R9). -/
def wrap32 (n : Int) : Word := BitVec.ofInt 32 n

/-- `zext_32(v)`: the pattern extended with zero bits (R9). -/
def zext32 {w : Nat} (v : BitVec w) : Word := v.setWidth 32

/-- `trunc(a / b)` for integers, `b ≠ 0`: the quotient rounded toward zero (R9, R133). -/
def truncDiv (a b : Int) : Int := a.tdiv b

end Sys2Proof.Machine
end

