-- ==== Sys2Proof/Config.lean ====
section
/-! DEFINITION. What one engine fixes and the spec leaves to it: the capacity of the program memory, and one
point of the assembler's text format. Both are constants with no value that a proof could see. -/

namespace Sys2Proof.Config

/-- PROG_CAP less one. The spec leaves PROG_CAP OPEN in 1 to 2^31 (R5, D5); one less than it is any number below
2^31, and nothing says which (assumption 2). -/
opaque progCapPred : Fin (2 ^ 31)

/-- PROG_CAP, the capacity of the program memory in bytes: 1 <= PROG_CAP <= 2^31 (R5, D5; assumption 2). -/
def progCap : Nat := progCapPred.val + 1

/-- Whether an integer literal may carry a leading `+`: R77 leaves it open (N9; assumption 19). Assembler only. -/
opaque plusSignAccepted : Bool

end Sys2Proof.Config
end

