-- ==== Sys2Proof/Machine/State.lean ====
section
/-! DEFINITION. The state of one engine, as plain data: exactly the list of R20; the reasons a step can stop; the state
right after RESET. -/

namespace Sys2Proof.Machine

/-- `status`: whether the engine may execute (R30). Three values, coded RUNNING 0, HALTED 1, FAULTED 2 by
`Status.code`; the code 3 never occurs. -/
inductive Status where
  /-- A STEP executes the instruction at `pc`. -/
  | running
  /-- A HLT was executed. -/
  | halted
  /-- A fault was raised. -/
  | faulted
  deriving DecidableEq, Repr

/-- The causes of an execution fault (R180). Their codes are `Cause.code`. -/
inductive Cause where
  /-- "unrecognized opcode byte" (R181). -/
  | illegalOpcode
  /-- The opcode fetch finds no byte at `pc` (R182). -/
  | pcPastEnd
  /-- An operand read passes the end of the stream (R183). -/
  | operandPastEnd
  /-- "out-of-range register index" (R184). -/
  | regIndex
  /-- "division by zero" (R185). -/
  | divByZero
  /-- -2147483648 / -1 (R186). -/
  | divOverflow
  /-- JMPB below 0 (R187). -/
  | pcUnderflow
  /-- A negative jump target or distance (R188). -/
  | negJumpOperand
  deriving DecidableEq, Repr

/-- The reasons a step may stop with a fault OF THE MODEL: there are none, so the type has no constructor. Every
abnormal stop of the engine is one of the eight execution faults of R180, whose entry R190 describes: it is a NEXT
state with `status` FAULTED, and every later STEP is a next state too (R102). Safe: nothing is left out
(assumption 5). -/
inductive Fault where
  deriving DecidableEq, Repr

/-- The reasons an operation may be refused. -/
inductive Refusal where
  /-- Raised by `exec` for an instruction that has no meaning yet, by name; no arm of `exec` raises it now. Safe. -/
  | notModelled (mnemonic : String)
  /-- Raised by the host operation ADD_BYTE when `len = PROG_CAP`: "the operation is refused: no state changes" (R43,
  U15). No instruction and no STEP raises it. Safe: the spec says so. -/
  | programFull
  deriving DecidableEq, Repr

/-- The program memory `prog`: a list of address and byte pairs (R32, R40). Its canonical form, `Memory.wf`, has the
addresses 0, 1, 2, … in order, so equal memories are equal lists and the length of the list is `len`
(assumption 3). -/
abbrev Memory := List Host.Cell

/-- The state of one engine (R20): "nothing else persists from one STEP to the next". -/
structure State where
  /-- `x[0]` to `x[31]` (R21). -/
  x : Vector Word 32
  /-- The program counter: the address of the next byte to decode (R24). -/
  pc : Word
  /-- The equality flag (R28). -/
  eqf : Bool
  /-- The remainder register (R29). -/
  rem : Word
  /-- The run status (R30). -/
  status : Status
  /-- The cause code of the fault, 0 while there was none (R31, R180). -/
  fcause : BitVec 4
  /-- The opcode byte of the faulting instruction (R31). -/
  fopcode : Byte
  /-- The address of the opcode byte of the faulting instruction (R31). -/
  fpc : Word
  /-- The program memory; `len` is its length (R32). -/
  prog : Memory
  deriving DecidableEq, Repr

/-- The state right after RESET (R210, R211): everything zero, RUNNING, the program memory empty. -/
def State.reset : State where
  x := Vector.replicate 32 0
  pc := 0
  eqf := false
  rem := 0
  status := .running
  fcause := 0
  fopcode := 0
  fpc := 0
  prog := []

end Sys2Proof.Machine
end

