-- ==== Sys2Proof/Machine/Ops.lean ====
section
/-! DEFINITION. The named operations over the program memory, the registers and the control registers, and fault
entry. Nothing else reads or writes the state. -/

namespace Sys2Proof.Machine

/-- The outcome of an instruction or a step. -/
abbrev Result := Host.Outcome State Fault Refusal

/-! ### Program memory -/

/-- What an address that holds no byte reads as: nothing. "It never returns a default byte" (R48). -/
def Memory.unlisted : Option Byte := none

/-- The byte at an address, if there is one (R11, R48). -/
def Memory.read : Memory → Nat → Option Byte
  | [], _ => Memory.unlisted
  | c :: cs, a => if c.1 = a then some c.2 else Memory.read cs a

/-- `len`: the number of bytes (R32, R40). -/
def Memory.len (m : Memory) : Nat := m.length

/-- The addresses of the cells are `n`, `n + 1`, … in order. -/
def Memory.wfFrom : Nat → Memory → Bool
  | _, [] => true
  | n, c :: cs => decide (c.1 = n) && Memory.wfFrom (n + 1) cs

/-- The canonical form: the addresses are 0 to len - 1 in order (R40). No address is listed twice, and no entry equals
what an unlisted address reads as, since that is no byte at all. -/
def Memory.wf (m : Memory) : Bool := Memory.wfFrom 0 m

/-- `MemWrite(len, 1, b)`: append a byte (R11, R43). -/
def Memory.append (m : Memory) (b : Byte) : Memory := m ++ [(m.len, b)]

/-- The bytes in address order (R55). -/
def Memory.bytes (m : Memory) : List Byte := m.map Prod.snd

/-- The memory that holds the given bytes at `n`, `n + 1`, …. -/
def Memory.ofBytesFrom : Nat → List Byte → Memory
  | _, [] => []
  | n, b :: bs => (n, b) :: Memory.ofBytesFrom (n + 1) bs

/-- The memory that holds exactly the given bytes from address 0 (R56). -/
def Memory.ofBytes (bs : List Byte) : Memory := Memory.ofBytesFrom 0 bs

/-- The bytes at `a`, `a + 1`, …: at most `n` of them, fewer where the memory ends first (R12, R41, R46). -/
def Memory.bytesFrom (m : Memory) (a : Nat) : Nat → List Byte
  | 0 => []
  | n + 1 =>
    match m.read a with
    | none => []
    | some b => b :: Memory.bytesFrom m (a + 1) n

/-- The memory with the bytes `bs` at `a`, `a + 1`, …, longer if need be; a gap below `a` is filled with zero bytes. No
instruction and no host operation does this: it stands for a load from outside (assumption 6). -/
def Memory.overlay (m : Memory) (a : Nat) (bs : List Byte) : Memory :=
  Memory.ofBytes (m.bytes.take a ++ List.replicate (a - m.len) 0 ++ bs ++ m.bytes.drop (a + bs.length))

/-- `len` (R32). -/
def State.len (s : State) : Nat := s.prog.len

/-! ### Registers -/

/-- `x[i]` (R10, R21). No register is hardwired. -/
def State.reg (s : State) (i : Fin 32) : Word := s.x[i]

/-- `x[i] <- v` (R10, R21). -/
def State.setReg (s : State) (i : Fin 32) (v : Word) : State := { s with x := s.x.set i v }

/-- `pc <- t` (R10). -/
def State.setPc (s : State) (t : Word) : State := { s with pc := t }

/-- `pc` moved past `n` bytes that were read (R25, R103, R104). On 32 bits; a run never wraps (R26, assumption 4). -/
def State.advance (s : State) (n : Nat) : State := s.setPc (s.pc + BitVec.ofNat 32 n)

/-- `eqf <- b` (R28). -/
def State.setEqf (s : State) (b : Bool) : State := { s with eqf := b }

/-- `rem <- v` (R29). -/
def State.setRem (s : State) (v : Word) : State := { s with rem := v }

/-- `status <- HALTED` (R170). -/
def State.halt (s : State) : State := { s with status := .halted }

/-- The program memory replaced: what ADD_BYTE, and loading from outside, write (R42, R43). -/
def State.setProg (s : State) (m : Memory) : State := { s with prog := m }

/-! ### Status and fault codes -/

/-- The 2-bit code of `status` (R30). -/
def Status.code : Status → BitVec 2
  | .running => 0
  | .halted => 1
  | .faulted => 2

/-- The 4-bit code of a cause (R180). -/
def Cause.code : Cause → BitVec 4
  | .illegalOpcode => 1
  | .pcPastEnd => 2
  | .operandPastEnd => 3
  | .regIndex => 4
  | .divByZero => 5
  | .divOverflow => 6
  | .pcUnderflow => 7
  | .negJumpOperand => 8

/-! ### Fault entry -/

/-- The state after fault entry (R190): the fault record written, `status` FAULTED, nothing else. `op` is the opcode
byte read in this STEP, 0 for PC_PAST_END; `ipc` the address of the instruction. -/
def State.enterFault (s : State) (c : Cause) (op : Byte) (ipc : Word) : State :=
  { s with fcause := c.code, fopcode := op, fpc := ipc, status := .faulted }

/-- `raise F` (R13, R190): the ONE operation by which every execution fault is taken. `s` is the state with `pc` where
it stood when the fault was raised (R191). There is no return from a fault to model: only RESET leaves FAULTED
(R193). -/
def raise (c : Cause) (op : Byte) (ipc : Word) (s : State) : Result :=
  .next (s.enterFault c op ipc)

end Sys2Proof.Machine
end

