-- ==== Sys2Proof/Machine/Operands.lean ====
section
/-! DEFINITION. The operand forms: register bytes checked in operand order, and the register of a jump. -/

namespace Sys2Proof.Machine

/-- `Reg(b)` of R12: the register a byte names, if it names one. Not masked (R68). -/
def reg? (b : Byte) : Option (Fin 32) :=
  if h : b.toNat < 32 then some ⟨b.toNat, h⟩ else none

/-- Check one register byte: REG_INDEX if it is 32 or more, else go on with the register (R105, R184). -/
def withReg (op : Byte) (ipc : Word) (b : Byte) (s : State) (k : Fin 32 → Result) : Result :=
  match reg? b with
  | none => raise .regIndex op ipc s
  | some r => k r

/-- Two register bytes, r1 before r2 (R105). -/
def withReg2 (op : Byte) (ipc : Word) (b1 b2 : Byte) (s : State) (k : Fin 32 → Fin 32 → Result) : Result :=
  withReg op ipc b1 s fun r1 => withReg op ipc b2 s fun r2 => k r1 r2

/-- Three register bytes, r1 before r2 before r3 (R105). -/
def withReg3 (op : Byte) (ipc : Word) (b1 b2 b3 : Byte) (s : State) (k : Fin 32 → Fin 32 → Fin 32 → Result) : Result :=
  withReg op ipc b1 s fun r1 => withReg op ipc b2 s fun r2 => withReg op ipc b3 s fun r3 => k r1 r2 r3

/-- The value of a jump's register: NEG_JUMP_OPERAND if it is negative, else go on with it (R143, R188). -/
def withJumpOperand (op : Byte) (ipc : Word) (r : Fin 32) (s : State) (k : Nat → Result) : Result :=
  if s32 (s.reg r) < 0 then raise .negJumpOperand op ipc s else k (s32 (s.reg r)).toNat

end Sys2Proof.Machine
end

