-- ==== Sys2Proof/Machine/Arith.lean ====
section
/-! DEFINITION. ADD, SUB, MUL, DIV (42_arithmetic.md). `s` is the state at the start of the STEP, so `s.pc` is ipc. -/

namespace Sys2Proof.Machine

/-- What ADD, SUB and MUL share: three registers checked, both sources read before the write, `x[r3]` written with
`wrap32` of the exact result, pc = ipc + 4 (R106, R130 to R132, R135). -/
def wrapArith (op : Byte) (f : Int → Int → Int) (r1 r2 r3 : Byte) (s : State) : Result :=
  withReg3 op s.pc r1 r2 r3 (s.advance 4) fun a b d =>
    .next ((s.advance 4).setReg d (wrap32 (f (s32 (s.reg a)) (s32 (s.reg b)))))

/-- ADD r1, r2, r3 (R130). -/
def execAdd (r1 r2 r3 : Byte) (s : State) : Result := wrapArith 0x02 (fun a b => a + b) r1 r2 r3 s

/-- SUB r1, r2, r3: the first operand minus the second (R131). -/
def execSub (r1 r2 r3 : Byte) (s : State) : Result := wrapArith 0x03 (fun a b => a - b) r1 r2 r3 s

/-- MUL r1, r2, r3: the low 32 bits of the product (R132). -/
def execMul (r1 r2 r3 : Byte) (s : State) : Result := wrapArith 0x04 (fun a b => a * b) r1 r2 r3 s

/-- DIV r1, r2, r3 (R133): DIV_BY_ZERO, then DIV_OVERFLOW, else the truncated quotient into `x[r3]` and the remainder
into `rem`. -/
def execDiv (r1 r2 r3 : Byte) (s : State) : Result :=
  withReg3 0x05 s.pc r1 r2 r3 (s.advance 4) fun r1 r2 d =>
    let a := s32 (s.reg r1)
    let b := s32 (s.reg r2)
    if b = 0 then raise .divByZero 0x05 s.pc (s.advance 4)
    else if a = -2147483648 ∧ b = -1 then raise .divOverflow 0x05 s.pc (s.advance 4)
    else
      let q := truncDiv a b
      .next (((s.advance 4).setReg d (wrap32 q)).setRem (wrap32 (a - q * b)))

end Sys2Proof.Machine
end

