-- ==== Sys2Proof/Machine/Flags.lean ====
section
/-! DEFINITION. The six truth values a comparison writes into `eqf`: signed, the first register on the left (R150 to
R156). -/

namespace Sys2Proof.Machine

/-- EQ: `a = b` (R150). -/
def flagEq (a b : Int) : Bool := decide (a = b)

/-- NEQ: `a != b` (R151). -/
def flagNeq (a b : Int) : Bool := decide (a ≠ b)

/-- GT: `a > b` (R152). -/
def flagGt (a b : Int) : Bool := decide (a > b)

/-- LT: `a < b` (R153). -/
def flagLt (a b : Int) : Bool := decide (a < b)

/-- GTEQ: `a >= b` (R154). -/
def flagGteq (a b : Int) : Bool := decide (a ≥ b)

/-- LTEQ: `a <= b` (R155). -/
def flagLteq (a b : Int) : Bool := decide (a ≤ b)

end Sys2Proof.Machine
end

