-- ==== Sys2Proof/Machine/Compare.lean ====
section
/-! DEFINITION. EQ, NEQ, GT, LT, GTEQ, LTEQ (44_compare.md). `s` is the state at the start of the STEP, so `s.pc` is
ipc. The spare byte is an operand that nothing reads (R157). -/

namespace Sys2Proof.Machine

/-- What the six comparisons share: two registers checked, read as signed, `eqf` written, pc = ipc + 4 (44_compare.md's
preamble). -/
def compareRegs (op : Byte) (f : Int → Int → Bool) (r1 r2 : Byte) (s : State) : Result :=
  withReg2 op s.pc r1 r2 (s.advance 4) fun a b =>
    .next ((s.advance 4).setEqf (f (s32 (s.reg a)) (s32 (s.reg b))))

/-- EQ r1, r2 (R150). -/
def execEq (r1 r2 : Byte) (s : State) : Result := compareRegs 0x0A flagEq r1 r2 s

/-- NEQ r1, r2 (R151). -/
def execNeq (r1 r2 : Byte) (s : State) : Result := compareRegs 0x0B flagNeq r1 r2 s

/-- GT r1, r2 (R152). -/
def execGt (r1 r2 : Byte) (s : State) : Result := compareRegs 0x0C flagGt r1 r2 s

/-- LT r1, r2 (R153). -/
def execLt (r1 r2 : Byte) (s : State) : Result := compareRegs 0x0D flagLt r1 r2 s

/-- GTEQ r1, r2 (R154). -/
def execGteq (r1 r2 : Byte) (s : State) : Result := compareRegs 0x0E flagGteq r1 r2 s

/-- LTEQ r1, r2 (R155). -/
def execLteq (r1 r2 : Byte) (s : State) : Result := compareRegs 0x0F flagLteq r1 r2 s

end Sys2Proof.Machine
end

