-- ==== Sys2Proof/Machine/Halt.lean ====
section
/-! DEFINITION. HLT and the illegal opcodes (46_halt_illegal.md). `s` is the state at the start of the STEP. -/

namespace Sys2Proof.Machine

/-- HLT: `status <- HALTED`; pc = ipc + 1 (R170). -/
def execHlt (s : State) : Result := .next (s.advance 1).halt

/-- An illegal opcode byte: `raise IllegalOpcode`, with fopcode the byte, fpc = ipc, and pc = ipc + 1 (R171, R181). -/
def execIllegal (b : Byte) (s : State) : Result := raise .illegalOpcode b s.pc (s.advance 1)

end Sys2Proof.Machine
end

