-- ==== Sys2Proof/Machine/Jump.lean ====
section
/-! DEFINITION. JMP, JMPF, JMPB (43_jumps.md) and JEQ, JNEQ (45_cond_jumps.md). `s` is the state at the start of the
STEP, so `s.pc` is ipc; a target is never compared with `len` (R144). -/

namespace Sys2Proof.Machine

/-- JMP r: `pc <- v` (R140). -/
def execJmp (r : Byte) (s : State) : Result :=
  withReg 0x07 s.pc r (s.advance 2) fun r =>
    withJumpOperand 0x07 s.pc r (s.advance 2) fun v => .next (s.setPc (BitVec.ofNat 32 v))

/-- JMPF r: `pc <- pc + v`, counted from ipc + 2 (R141). -/
def execJmpf (r : Byte) (s : State) : Result :=
  withReg 0x08 s.pc r (s.advance 2) fun r =>
    withJumpOperand 0x08 s.pc r (s.advance 2) fun v => .next ((s.advance 2).advance v)

/-- JMPB r: `pc <- pc - v`, counted from ipc + 2; PC_UNDERFLOW if that is below 0 (R142). -/
def execJmpb (r : Byte) (s : State) : Result :=
  withReg 0x09 s.pc r (s.advance 2) fun r =>
    withJumpOperand 0x09 s.pc r (s.advance 2) fun v =>
      if v > u32 (s.advance 2).pc then raise .pcUnderflow 0x09 s.pc (s.advance 2)
      else .next (s.setPc (BitVec.ofNat 32 (u32 (s.advance 2).pc - v)))

/-- What JEQ and JNEQ share: the register byte is checked whether or not the jump is taken, the register's value only
when it is; not taken, pc = ipc + 2 (R105, R160 to R162). -/
def condJump (op : Byte) (taken : Bool) (r : Byte) (s : State) : Result :=
  withReg op s.pc r (s.advance 2) fun r =>
    if taken then withJumpOperand op s.pc r (s.advance 2) fun v => .next (s.setPc (BitVec.ofNat 32 v))
    else .next (s.advance 2)

/-- JEQ r: jump if `eqf` is 1 (R160). -/
def execJeq (r : Byte) (s : State) : Result := condJump 0x10 s.eqf r s

/-- JNEQ r: jump if `eqf` is 0 (R161). -/
def execJneq (r : Byte) (s : State) : Result := condJump 0x11 (!s.eqf) r s

end Sys2Proof.Machine
end

