-- ==== Sys2Proof/Machine/Load.lean ====
section
/-! DEFINITION. LOAD (41_load.md). `s` is the state at the start of the STEP, so `s.pc` is ipc. -/

namespace Sys2Proof.Machine

/-- LOAD r, imm16: `x[r] <- zext_32(imm16)`; pc = ipc + 4 (R120). -/
def execLoad (r : Byte) (imm16 : Half) (s : State) : Result :=
  withReg 0x01 s.pc r (s.advance 4) fun d => .next ((s.advance 4).setReg d (zext32 imm16))

end Sys2Proof.Machine
end

