-- ==== Sys2Proof/Syntax.lean ====
section
/-! DEFINITION. The instructions as syntax: one constructor per mnemonic of the opcode table, each with every operand
byte its encoding carries. -/

namespace Sys2Proof

/-- The 17 instructions of R66 and the decoder's answer ILLEGAL (R67, R172), with their operands in the order of the
encoded bytes (R61 to R65). A register operand is the whole register byte: R68 makes 32 to 255 no other instruction
but one that raises REG_INDEX when it executes, so the byte is kept and `Instr.wf` says which values name a register
(assumption 15). A comparison keeps its spare byte (R70), so that no byte of an encoding is lost. -/
inductive Instr where
  /-- HLT, format N (R61, R170). -/
  | hlt
  /-- LOAD r, imm16, format RI (R63, R120). -/
  | load (r : Byte) (imm16 : Half)
  /-- ADD r1, r2, r3, format RRR; `r3` is the destination (R64, R130). -/
  | add (r1 r2 r3 : Byte)
  /-- SUB r1, r2, r3 (R64, R131). -/
  | sub (r1 r2 r3 : Byte)
  /-- MUL r1, r2, r3 (R64, R132). -/
  | mul (r1 r2 r3 : Byte)
  /-- DIV r1, r2, r3 (R64, R133). -/
  | div (r1 r2 r3 : Byte)
  /-- JMP r, format R (R62, R140). -/
  | jmp (r : Byte)
  /-- JMPF r (R62, R141). -/
  | jmpf (r : Byte)
  /-- JMPB r (R62, R142). -/
  | jmpb (r : Byte)
  /-- EQ r1, r2, format RRX (R65, R150). -/
  | eq (r1 r2 spare : Byte)
  /-- NEQ r1, r2 (R65, R151). -/
  | neq (r1 r2 spare : Byte)
  /-- GT r1, r2 (R65, R152). -/
  | gt (r1 r2 spare : Byte)
  /-- LT r1, r2 (R65, R153). -/
  | lt (r1 r2 spare : Byte)
  /-- GTEQ r1, r2 (R65, R154). -/
  | gteq (r1 r2 spare : Byte)
  /-- LTEQ r1, r2 (R65, R155). -/
  | lteq (r1 r2 spare : Byte)
  /-- JEQ r, format R (R62, R160). -/
  | jeq (r : Byte)
  /-- JNEQ r (R62, R161). -/
  | jneq (r : Byte)
  /-- ILLEGAL: the opcode byte `b` is none of the 17 codes (R67, R71, R171). One byte long. -/
  | illegal (b : Byte)
  deriving DecidableEq, Repr

end Sys2Proof
end

