-- ==== Sys2Proof/Machine/Dispatch.lean ====
section
/-! DEFINITION. One arm per instruction: the meaning of an instruction on the state at the start of its STEP (R101). -/

namespace Sys2Proof.Machine

/-- The execute phase of R101, on a state whose pc is ipc. Whether the engine may execute at all is `step`'s question
(R102, assumption 17). -/
def exec (i : Instr) (s : State) : Host.Outcome State Fault Refusal :=
  match i with
  -- 46_halt_illegal.md
  | .hlt => Sys2Proof.Machine.execHlt s
  -- 41_load.md
  | .load r imm16 => Sys2Proof.Machine.execLoad r imm16 s
  -- 42_arithmetic.md
  | .add r1 r2 r3 => Sys2Proof.Machine.execAdd r1 r2 r3 s
  | .sub r1 r2 r3 => Sys2Proof.Machine.execSub r1 r2 r3 s
  | .mul r1 r2 r3 => Sys2Proof.Machine.execMul r1 r2 r3 s
  | .div r1 r2 r3 => Sys2Proof.Machine.execDiv r1 r2 r3 s
  -- 43_jumps.md
  | .jmp r => Sys2Proof.Machine.execJmp r s
  | .jmpf r => Sys2Proof.Machine.execJmpf r s
  | .jmpb r => Sys2Proof.Machine.execJmpb r s
  -- 44_compare.md: the spare byte is read by the decoder and discarded (R157)
  | .eq r1 r2 _ => Sys2Proof.Machine.execEq r1 r2 s
  | .neq r1 r2 _ => Sys2Proof.Machine.execNeq r1 r2 s
  | .gt r1 r2 _ => Sys2Proof.Machine.execGt r1 r2 s
  | .lt r1 r2 _ => Sys2Proof.Machine.execLt r1 r2 s
  | .gteq r1 r2 _ => Sys2Proof.Machine.execGteq r1 r2 s
  | .lteq r1 r2 _ => Sys2Proof.Machine.execLteq r1 r2 s
  -- 45_cond_jumps.md
  | .jeq r => Sys2Proof.Machine.execJeq r s
  | .jneq r => Sys2Proof.Machine.execJneq r s
  -- 46_halt_illegal.md
  | .illegal b => Sys2Proof.Machine.execIllegal b s

end Sys2Proof.Machine
end

