-- ==== Sys2Proof/WellFormed.lean ====
section
/-! DEFINITION. Which instructions are well formed: every register byte names a register, and an ILLEGAL carries a byte
that is no opcode. -/

namespace Sys2Proof

/-- A register byte names a register: it is 0 to 31 (R62 to R65, R68). -/
def regOk (b : Byte) : Bool := decide (b.toNat < 32)

/-- A byte that is none of the 17 codes: 6, or 18 to 255 (R66, R67, R71). -/
def illegalOpcode (b : Byte) : Bool := decide (b.toNat = 6 ∨ 18 ≤ b.toNat)

/-- The register fields of an instruction, in operand order (R61 to R65, R105). The spare byte is none of them (R157). -/
def Instr.regBytes : Instr → List Byte
  | .hlt => []
  | .load r _ => [r]
  | .add r1 r2 r3 => [r1, r2, r3]
  | .sub r1 r2 r3 => [r1, r2, r3]
  | .mul r1 r2 r3 => [r1, r2, r3]
  | .div r1 r2 r3 => [r1, r2, r3]
  | .jmp r => [r]
  | .jmpf r => [r]
  | .jmpb r => [r]
  | .eq r1 r2 _ => [r1, r2]
  | .neq r1 r2 _ => [r1, r2]
  | .gt r1 r2 _ => [r1, r2]
  | .lt r1 r2 _ => [r1, r2]
  | .gteq r1 r2 _ => [r1, r2]
  | .lteq r1 r2 _ => [r1, r2]
  | .jeq r => [r]
  | .jneq r => [r]
  | .illegal _ => []

/-- The check that every decoded instruction meets whatever its register bytes are: an ILLEGAL carries a
byte that is no opcode (R67). -/
def Instr.opcodeWf : Instr → Bool
  | .illegal b => illegalOpcode b
  | .hlt | .load _ _ | .add _ _ _ | .sub _ _ _ | .mul _ _ _ | .div _ _ _ | .jmp _ | .jmpf _ | .jmpb _
  | .eq _ _ _ | .neq _ _ _ | .gt _ _ _ | .lt _ _ _ | .gteq _ _ _ | .lteq _ _ _ | .jeq _ | .jneq _ => true

/-- The checks on an instruction's operands: every register field names a register (R68), and an ILLEGAL carries a byte
that is no opcode (R67, R71). The spare byte of a comparison and the immediate of LOAD are unconstrained (R69, R70). -/
def Instr.wf (i : Instr) : Bool := i.regBytes.all regOk && i.opcodeWf

end Sys2Proof
end

