-- ==== Sys2Proof/Decode.lean ====
section
/-! DEFINITION. Decoding: total on any bytes, rejecting by name; and the encoder, written from the same format tables
(R60 to R67). -/

namespace Sys2Proof

/-- What the decoder reads from the bytes that lie at an instruction's start. -/
inductive DecodeResult where
  /-- An instruction, and the bytes after it. -/
  | ok (i : Instr) (rest : List Byte)
  /-- There is no opcode byte (R103). -/
  | noOpcode
  /-- The opcode byte `op` is legal and the bytes end before the operands do: `consumed` bytes, the opcode byte among
  them, were read before the unit that could not be read (R104). -/
  | operandPastEnd (op : Byte) (consumed : Nat)
  deriving DecidableEq, Repr

/-- A 16-bit quantity from its two bytes, the byte at the lower address high (R44, R69: `imm16 = B2 ++ B3`). -/
def be16 (hi lo : Byte) : Half := hi ++ lo

/-- The high byte of a 16-bit quantity (R63: B2 is imm16[15:8]). -/
def hi8 (v : Half) : Byte := v.extractLsb' 8 8

/-- The low byte of a 16-bit quantity (R63: B3 is imm16[7:0]). -/
def lo8 (v : Half) : Byte := v.extractLsb' 0 8

/-- Format R: one operand byte (R62, R104). -/
def operandsR (mk : Byte → Instr) (op : Byte) : List Byte → DecodeResult
  | b1 :: rest => .ok (mk b1) rest
  | [] => .operandPastEnd op 1

/-- Format RI: one byte, then the two-byte immediate read as a unit (R63, R104, R12 `Next16`). -/
def operandsRI (mk : Byte → Half → Instr) (op : Byte) : List Byte → DecodeResult
  | b1 :: b2 :: b3 :: rest => .ok (mk b1 (be16 b2 b3)) rest
  | [_, _] => .operandPastEnd op 2
  | [_] => .operandPastEnd op 2
  | [] => .operandPastEnd op 1

/-- Formats RRR and RRX: three operand bytes (R64, R65, R104). -/
def operands3 (mk : Byte → Byte → Byte → Instr) (op : Byte) : List Byte → DecodeResult
  | b1 :: b2 :: b3 :: rest => .ok (mk b1 b2 b3) rest
  | [_, _] => .operandPastEnd op 3
  | [_] => .operandPastEnd op 2
  | [] => .operandPastEnd op 1

/-- The decoder. The opcode byte alone selects the instruction, its format and its length (R60, R66, R67); every byte
that is not one of the 17 codes is ILLEGAL, one byte long (R67, R71). -/
def decode : List Byte → DecodeResult
  | [] => .noOpcode
  | op :: rest =>
    match op.toNat with
    | 0 => .ok .hlt rest
    | 1 => operandsRI .load op rest
    | 2 => operands3 .add op rest
    | 3 => operands3 .sub op rest
    | 4 => operands3 .mul op rest
    | 5 => operands3 .div op rest
    | 7 => operandsR .jmp op rest
    | 8 => operandsR .jmpf op rest
    | 9 => operandsR .jmpb op rest
    | 10 => operands3 .eq op rest
    | 11 => operands3 .neq op rest
    | 12 => operands3 .gt op rest
    | 13 => operands3 .lt op rest
    | 14 => operands3 .gteq op rest
    | 15 => operands3 .lteq op rest
    | 16 => operandsR .jeq op rest
    | 17 => operandsR .jneq op rest
    | _ => .ok (.illegal op) rest

/-- The opcode byte of an instruction (R66). -/
def Instr.opcode : Instr → Byte
  | .hlt => 0x00
  | .load _ _ => 0x01
  | .add _ _ _ => 0x02
  | .sub _ _ _ => 0x03
  | .mul _ _ _ => 0x04
  | .div _ _ _ => 0x05
  | .jmp _ => 0x07
  | .jmpf _ => 0x08
  | .jmpb _ => 0x09
  | .eq _ _ _ => 0x0A
  | .neq _ _ _ => 0x0B
  | .gt _ _ _ => 0x0C
  | .lt _ _ _ => 0x0D
  | .gteq _ _ _ => 0x0E
  | .lteq _ _ _ => 0x0F
  | .jeq _ => 0x10
  | .jneq _ => 0x11
  | .illegal b => b

/-- The operand bytes of an instruction, in address order (R61 to R65). -/
def Instr.operandBytes : Instr → List Byte
  | .hlt => []
  | .load r imm16 => [r, hi8 imm16, lo8 imm16]
  | .add r1 r2 r3 => [r1, r2, r3]
  | .sub r1 r2 r3 => [r1, r2, r3]
  | .mul r1 r2 r3 => [r1, r2, r3]
  | .div r1 r2 r3 => [r1, r2, r3]
  | .jmp r => [r]
  | .jmpf r => [r]
  | .jmpb r => [r]
  | .eq r1 r2 spare => [r1, r2, spare]
  | .neq r1 r2 spare => [r1, r2, spare]
  | .gt r1 r2 spare => [r1, r2, spare]
  | .lt r1 r2 spare => [r1, r2, spare]
  | .gteq r1 r2 spare => [r1, r2, spare]
  | .lteq r1 r2 spare => [r1, r2, spare]
  | .jeq r => [r]
  | .jneq r => [r]
  | .illegal _ => []

/-- The bytes of an instruction: its opcode byte, then its operands (R60). -/
def encode (i : Instr) : List Byte := i.opcode :: i.operandBytes

/-- The length of an instruction in bytes: 1, 2 or 4 (R60, R67). -/
def Instr.size : Instr → Nat
  | .hlt => 1
  | .load _ _ | .add _ _ _ | .sub _ _ _ | .mul _ _ _ | .div _ _ _ => 4
  | .jmp _ | .jmpf _ | .jmpb _ | .jeq _ | .jneq _ => 2
  | .eq _ _ _ | .neq _ _ _ | .gt _ _ _ | .lt _ _ _ | .gteq _ _ _ | .lteq _ _ _ => 4
  | .illegal _ => 1

/-- The length of the longest instruction (R60). -/
def maxInstrBytes : Nat := 4

/-- The `k` bytes of a number, the most significant first. -/
def bytesBE (w : Nat) : Nat → List Byte
  | 0 => []
  | k + 1 => BitVec.ofNat 8 (w / 256 ^ k) :: bytesBE w k

/-- The bytes of an opcode-table word of `nbits` bits, as they lie in program memory: the table draws an instruction as
ONE word with B0 most significant (R8, 30_encoding.md's opening), so the most significant of its bytes comes first; zero
bytes follow up to the longest instruction (assumption 1). -/
def tableWordBytes (nbits w : Nat) : List Byte :=
  bytesBE w (nbits / 8) ++ List.replicate (maxInstrBytes - nbits / 8) 0

/-- The instruction the decoder reads from an opcode-table word (assumption 1). -/
def decodeTableWord (nbits w : Nat) : Option Instr :=
  match decode (tableWordBytes nbits w) with
  | .ok i _ => some i
  | .noOpcode => none
  | .operandPastEnd _ _ => none

end Sys2Proof
end

