-- ==== Sys2Proof/Machine/Fetch.lean ====
section
/-! DEFINITION. Fetching: the bytes at `pc`, the two faults of running past the end, and a terminal STEP (40_cycle.md). -/

namespace Sys2Proof.Machine

/-- The program bytes from `pc` on, as many as the longest instruction has, fewer where the program ends (R41, R103,
R104). Which of them are read is the decoder's business; reading has no effect (R46). -/
def State.fetchBytes (s : State) : List Byte := s.prog.bytesFrom (u32 s.pc) maxInstrBytes

/-- The instruction at `pc`, or how the bytes ran out (R101). -/
def State.fetch (s : State) : DecodeResult := decode s.fetchBytes

/-- No opcode byte at `pc`: PC_PAST_END, `pc` unchanged, fopcode 0, fpc = pc (R103, R182). -/
def fetchPastEnd (s : State) : Result := raise .pcPastEnd 0 s.pc s

/-- The operands of the opcode `op` are not all there: OPERAND_PAST_END, `pc` at the unit that could not be read (R104,
R183). -/
def operandPastEnd (op : Byte) (consumed : Nat) (s : State) : Result :=
  raise .operandPastEnd op s.pc (s.advance consumed)

/-- A STEP of a terminal engine changes nothing (R102). -/
def terminalStep (s : State) : Result := .next s

end Sys2Proof.Machine
end

