-- ==== Sys2Proof/Machine/Step.lean ====
section
/-! DEFINITION. STEP (R100, R101), and the state with one given instruction placed where the next STEP fetches. -/

namespace Sys2Proof.Machine

/-- A STEP of a running engine: fetch, decode, execute (R101). -/
def cycle (s : State) : Host.Outcome State Fault Refusal :=
  match s.fetch with
  | .ok i _ => exec i s
  | .noOpcode => fetchPastEnd s
  | .operandPastEnd op consumed => operandPastEnd op consumed s

/-- STEP (R101): the terminal check (R102), then the cycle. Its result `continue` is `HostOp.continues` of the state it
leaves (R107, assumption 7). -/
def step (s : State) : Host.Outcome State Fault Refusal :=
  match s.status with
  | .running => cycle s
  | .halted => terminalStep s
  | .faulted => terminalStep s

/-- `s` with the bytes of an opcode-table word, and zero bytes up to the longest instruction, at `pc`, and RUNNING: all
that the next STEP needs to fetch and run that instruction. It stands for loading a program from outside, which on this
machine is a sequence of ADD_BYTE (R43, R212; assumption 6). -/
def State.withFetchWord (s : State) (nbits w : Nat) : State :=
  { s with prog := s.prog.overlay (u32 s.pc) (tableWordBytes nbits w), status := .running }

end Sys2Proof.Machine
end

