-- ==== Sys2Proof/Machine/Assembler.lean ====
section
/-! DEFINITION. The assembler's text-to-bytes mapping (R74 to R85). It is software outside the hardware block (R4): no
STEP calls it. It is written down because programs for the hardware are written in its text format. -/

namespace Sys2Proof.Assembler

/-- ASCII whitespace: space, tab, line feed, form feed, carriage return (R74; assumption 18). -/
def isSpace (c : Char) : Bool := c = ' ' || c = '\t' || c = '\n' || c = Char.ofNat 12 || c = '\r'

/-- Cut a list of characters at every character `p` holds of. -/
def cutAt (p : Char → Bool) : List Char → List (List Char)
  | [] => [[]]
  | c :: cs =>
    match cutAt p cs with
    | [] => [[c]]
    | w :: ws => if p c then [] :: w :: ws else (c :: w) :: ws

/-- The lines of a source text (R74, R82). -/
def lines (src : List Char) : List (List Char) := cutAt (fun c => c = '\n') src

/-- The tokens of a line: lowercased, trimmed, split on whitespace (R74). A blank line has none. -/
def tokens (line : List Char) : List (List Char) :=
  (cutAt isSpace (line.map Char.toLower)).filter (fun w => !w.isEmpty)

/-- The number a run of one or more decimal digits spells (R76, R77). -/
def digits (cs : List Char) : Option Nat :=
  if cs.isEmpty then none
  else if cs.all Char.isDigit then some (cs.foldl (fun n c => n * 10 + (c.toNat - 48)) 0)
  else none

/-- A register operand: `$` and digits, nothing else (R76). -/
def register : List Char → Option Nat
  | '$' :: ds => digits ds
  | _ => none

/-- A literal's value, if it is in the signed 32-bit range (R77 "fail numeric conversion"). -/
def inRange32 (n : Int) : Option Int := if -2147483648 ≤ n ∧ n ≤ 2147483647 then some n else none

/-- An integer operand: `#`, an optional sign, and digits, nothing else (R77, C2). Whether a leading `+` is a sign is
open (assumption 19). -/
def integer : List Char → Option Int
  | '#' :: '-' :: ds => (digits ds).bind fun n => inRange32 (-(n : Int))
  | '#' :: '+' :: ds => if Config.plusSignAccepted then (digits ds).bind fun n => inRange32 n else none
  | '#' :: ds => (digits ds).bind fun n => inRange32 n
  | _ => none

/-- Why a line fails (R83). -/
inductive LineError where
  /-- "opcode not recognized" (R75). -/
  | opcodeNotRecognized
  /-- "illegal operand": one is missing, or does not parse as its required kind (R78). -/
  | illegalOperand
  /-- A register index of 32 or more (R76, R83 EncodeError). -/
  | registerIndex
  deriving DecidableEq, Repr

/-- The register byte of an index that the encoder has verified to be below 32 (R68, R76).
That every number of 32 or more is rejected here, and none by the lexer, is the model's choice (assumption 22). -/
def registerByte (n : Nat) : Except LineError Byte :=
  if n < 32 then .ok (BitVec.ofNat 8 n) else .error .registerIndex

/-- The 16 bits an integer literal is narrowed to: `n mod 65536` (R80, R85, U5). -/
def narrow (n : Int) : Half := BitVec.ofInt 16 n

/-- Signature "register, integer" (R78). Tokens after the operands are ignored here and below (R79). -/
def registerInteger (mk : Byte → Half → Instr) : List (List Char) → Except LineError Instr
  | t1 :: t2 :: _ =>
    match register t1, integer t2 with
    | some r, some n => (registerByte r).map fun r => mk r (narrow n)
    | _, _ => .error .illegalOperand
  | _ => .error .illegalOperand

/-- Signature "register" (R78). -/
def oneRegister (mk : Byte → Instr) : List (List Char) → Except LineError Instr
  | t1 :: _ =>
    match register t1 with
    | some r => (registerByte r).map mk
    | none => .error .illegalOperand
  | _ => .error .illegalOperand

/-- Signature "register, register" (R78), with the spare byte 0x00 the assembler emits (R81). -/
def twoRegisters (mk : Byte → Byte → Byte → Instr) : List (List Char) → Except LineError Instr
  | t1 :: t2 :: _ =>
    match register t1, register t2 with
    | some r1, some r2 => (registerByte r1).bind fun r1 => (registerByte r2).map fun r2 => mk r1 r2 0
    | _, _ => .error .illegalOperand
  | _ => .error .illegalOperand

/-- Signature "register, register, register" (R78). -/
def threeRegisters (mk : Byte → Byte → Byte → Instr) : List (List Char) → Except LineError Instr
  | t1 :: t2 :: t3 :: _ =>
    match register t1, register t2, register t3 with
    | some r1, some r2, some r3 =>
      (registerByte r1).bind fun r1 => (registerByte r2).bind fun r2 => (registerByte r3).map fun r3 => mk r1 r2 r3
    | _, _, _ => .error .illegalOperand
  | _ => .error .illegalOperand

/-- One line's instruction, from its tokens: the mnemonic (R75), then the operands of its signature (R78). -/
def instruction : List (List Char) → Except LineError Instr
  | [] => .error .opcodeNotRecognized
  | mnemonic :: operands =>
    match mnemonic with
    | ['h', 'l', 't'] => .ok .hlt
    | ['l', 'o', 'a', 'd'] => registerInteger .load operands
    | ['a', 'd', 'd'] => threeRegisters .add operands
    | ['s', 'u', 'b'] => threeRegisters .sub operands
    | ['m', 'u', 'l'] => threeRegisters .mul operands
    | ['d', 'i', 'v'] => threeRegisters .div operands
    | ['j', 'm', 'p'] => oneRegister .jmp operands
    | ['j', 'm', 'p', 'f'] => oneRegister .jmpf operands
    | ['j', 'm', 'p', 'b'] => oneRegister .jmpb operands
    | ['e', 'q'] => twoRegisters .eq operands
    | ['n', 'e', 'q'] => twoRegisters .neq operands
    | ['g', 't'] => twoRegisters .gt operands
    | ['l', 't'] => twoRegisters .lt operands
    | ['g', 't', 'e', 'q'] => twoRegisters .gteq operands
    | ['l', 't', 'e', 'q'] => twoRegisters .lteq operands
    | ['j', 'e', 'q'] => oneRegister .jeq operands
    | ['j', 'n', 'e', 'q'] => oneRegister .jneq operands
    | _ => .error .opcodeNotRecognized

/-- An error report: the number of the offending line, counted from 1, and its content (R83). -/
structure LineReport where
  line : Nat
  content : List Char
  error : LineError
  deriving DecidableEq, Repr

/-- The outcome of an assembly: the bytes, or a report for every line that fails (R82 "no partial programs", R83). -/
inductive Assembled where
  | bytes (bs : List Byte)
  | failed (reports : List LineReport)
  deriving DecidableEq, Repr

/-- Assemble lines, the first of them numbered `n`: the bytes of the lines that assemble, in order, and the reports of
those that do not. Blank lines are passed over (R82). -/
def assembleFrom : Nat → List (List Char) → List Byte × List LineReport
  | _, [] => ([], [])
  | n, l :: ls =>
    let (bs, es) := assembleFrom (n + 1) ls
    match tokens l with
    | [] => (bs, es)
    | t :: ts =>
      match instruction (t :: ts) with
      | .ok i => (encode i ++ bs, es)
      | .error e => (bs, ⟨n, l, e⟩ :: es)

/-- Assemble a source text: the encodings concatenated "in program order", or, if any line fails, no program (R82). -/
def assemble (src : List Char) : Assembled :=
  match assembleFrom 1 (lines src) with
  | (bs, []) => .bytes bs
  | (_, e :: es) => .failed (e :: es)

end Sys2Proof.Assembler
end

