-- ==== Sys2Proof/Machine/HostOps.lean ====
section
/-! DEFINITION. The host's operations (R7): RESET, ADD_BYTE, the result of STEP, RUN under fuel, and the read-only
views. RUN itself, without fuel, is the relation `RunTo` of Safety.lean. -/

namespace Sys2Proof.Machine

/-- RESET: in any state, the state of `State.reset` (R210). -/
def HostOp.reset (_ : State) : State := State.reset

/-- ADD_BYTE(b): append one byte to the program and change nothing else; refused at capacity (R43). -/
def HostOp.addByte (b : Byte) (s : State) : Result :=
  if s.len < Config.progCap then .next (s.setProg (s.prog.append b)) else .refused .programFull

/-- Loading a program: "a sequence of ADD_BYTE operations in address order" (R43, R212). -/
def HostOp.load : List Byte → State → Result
  | [], s => .next s
  | b :: bs, s =>
    match HostOp.addByte b s with
    | .next t => HostOp.load bs t
    | .fault r => .fault r
    | .refused r => .refused r

/-- STEP's result `continue`, read from the state the STEP leaves: true exactly when the engine is still RUNNING (R107,
assumption 7). -/
def HostOp.continues (t : State) : Bool := decide (t.status = .running)

/-- RUN with at most `n` STEPs: the state RUN ends in, or none if it has not ended. The fuel is the executor's, not the
hardware's (R108, R225). -/
def HostOp.runFuel : Nat → State → Option State
  | 0, _ => none
  | n + 1, s =>
    match step s with
    | .next t => if HostOp.continues t then HostOp.runFuel n t else some t
    | .fault _ => none
    | .refused _ => none

/-- READ_REGS: the 32 registers (R34). -/
def HostOp.readRegs (s : State) : Vector Word 32 := s.x

/-- READ_PROG: the program bytes (R55). -/
def HostOp.readProg (s : State) : List Byte := s.prog.bytes

/-- What the debug views show (R35), each at its width. -/
structure DebugView where
  pc : Word
  eqf : BitVec 1
  rem : Word
  status : BitVec 2
  fcause : BitVec 4
  fopcode : Byte
  fpc : Word
  deriving DecidableEq, Repr

/-- The debug views (R35): the registers "as they stand". -/
def HostOp.debugView (s : State) : DebugView where
  pc := s.pc
  eqf := BitVec.ofBool s.eqf
  rem := s.rem
  status := s.status.code
  fcause := s.fcause
  fopcode := s.fopcode
  fpc := s.fpc

end Sys2Proof.Machine
end

