-- ==== Sys2Proof/Safety.lean ====
section
/-! DEFINITION. The terms the claims are made in: the end of a run, RUN, the states the host can reach, the invariant of
R36, and what fault entry and a completed instruction leave unchanged. -/

namespace Sys2Proof.Machine

/-- A run has ended normally: `status` is HALTED (R112). -/
def State.EndedNormally (s : State) : Prop := s.status = .halted

/-- A run has ended abnormally: `status` is FAULTED (R112). -/
def State.EndedAbnormally (s : State) : Prop := s.status = .faulted

/-- RUN: "repeat STEP until it returns false" (R108). `RunTo s t`: a RUN begun in `s` ends, in `t`. A RUN that never
ends is related to no state. -/
inductive RunTo : State → State → Prop where
  /-- The last STEP returns false. -/
  | last {s t : State} (h : step s = .next t) (stop : HostOp.continues t = false) : RunTo s t
  /-- A STEP returns true, and the RUN goes on. -/
  | more {s t u : State} (h : step s = .next t) (go : HostOp.continues t = true) (rest : RunTo t u) : RunTo s u

/-- The states the host's operations reach from RESET (R7). RUN is a sequence of STEPs, and the views change nothing. -/
inductive Reachable : State → Prop where
  | reset : Reachable State.reset
  | resetAgain {s : State} (h : Reachable s) : Reachable (HostOp.reset s)
  | addByte {s t : State} (b : Byte) (h : Reachable s) (ht : HostOp.addByte b s = .next t) : Reachable t
  | step {s t : State} (h : Reachable s) (ht : Machine.step s = .next t) : Reachable t

/-- The invariant of the machine, over RESET, ADD_BYTE and STEP (R36, R112, R31). -/
structure State.Inv (s : State) : Prop where
  /-- The program memory is in canonical form: addresses 0 to len - 1 (R40). -/
  progWf : s.prog.wf = true
  /-- `len <= PROG_CAP` (R36). -/
  fits : s.len ≤ Config.progCap
  /-- Until a fault is raised the fault record is zero (R36: RUNNING implies `fcause = 0`; R170, R202 for HALTED). -/
  noFaultYet : s.status ≠ .faulted → s.fcause = 0 ∧ s.fopcode = 0 ∧ s.fpc = 0
  /-- FAULTED implies `fcause` is in 1 to 8 (R36). -/
  causeKnown : s.status = .faulted → 1 ≤ s.fcause.toNat ∧ s.fcause.toNat ≤ 8
  /-- After a HLT, `pc` is the address after the HLT byte that stopped the engine (R112). -/
  haltedAfterHlt : s.status = .halted → ∃ a, u32 s.pc = a + 1 ∧ s.prog.read a = some 0
  /-- PC_PAST_END read no opcode byte and left `pc` where the fetch was attempted (R31, R182). -/
  pastEndRecord : s.status = .faulted → s.fcause = 2 → s.fopcode = 0 ∧ s.fpc = s.pc
  /-- Any other cause names the opcode byte that lies at `fpc` (R31, R190). -/
  recordTrue : s.status = .faulted → s.fcause ≠ 2 → s.prog.read (u32 s.fpc) = some s.fopcode

/-- The program memory of `t` is that of `s`: the same length, and every address reads the same byte (or none). -/
def SameProg (s t : State) : Prop := t.len = s.len ∧ ∀ a, t.prog.read a = s.prog.read a

/-- Every general register of `t` holds what it held in `s`. -/
def SameRegs (s t : State) : Prop := ∀ j, t.reg j = s.reg j

/-- Every general register of `t` but `d` holds what it held in `s`. -/
def SameRegsBut (d : Fin 32) (s t : State) : Prop := ∀ j, j ≠ d → t.reg j = s.reg j

/-- `status`, the fault record and the program memory of `t` are those of `s`: what no instruction changes that
completes without fault and is not HLT (R22, R30, R31, R42). -/
structure SameControl (s t : State) : Prop where
  status : t.status = s.status
  fcause : t.fcause = s.fcause
  fopcode : t.fopcode = s.fopcode
  fpc : t.fpc = s.fpc
  prog : SameProg s t

/-- From `s` to `t` only register `d` and `pc` have changed, `pc` by 4 (R120, R130 to R132 "State written"). -/
structure WritesOnlyReg (d : Fin 32) (s t : State) : Prop where
  regs : SameRegsBut d s t
  pc : t.pc = s.pc + 4
  eqf : t.eqf = s.eqf
  rem : t.rem = s.rem
  control : SameControl s t

/-- From `s` to `t` only `eqf` and `pc` have changed, `pc` by 4 (44_compare.md's preamble). -/
structure WritesOnlyFlag (s t : State) : Prop where
  regs : SameRegs s t
  pc : t.pc = s.pc + 4
  rem : t.rem = s.rem
  control : SameControl s t

/-- From `s` to `t` only `pc` has changed (R140 to R142, R160, R161 "State written"). -/
structure WritesOnlyPc (s t : State) : Prop where
  regs : SameRegs s t
  eqf : t.eqf = s.eqf
  rem : t.rem = s.rem
  control : SameControl s t

/-- `t` is what a fault of the cause coded `code` leaves, raised by the instruction with the opcode byte `op` at
`s.pc`, when `pc` had reached `pc'`: the record written, FAULTED, and no register, `eqf`, `rem` or program byte changed
(R190, R191). -/
structure FaultLeaves (code : BitVec 4) (op : Byte) (pc' : Word) (s t : State) : Prop where
  status : t.status = .faulted
  fcause : t.fcause = code
  fopcode : t.fopcode = op
  fpc : t.fpc = s.pc
  pc : t.pc = pc'
  regs : SameRegs s t
  eqf : t.eqf = s.eqf
  rem : t.rem = s.rem
  prog : SameProg s t

/-- The result `r` is the fault state of `FaultLeaves`. -/
def Faults (r : Result) (code : BitVec 4) (op : Byte) (pc' : Word) (s : State) : Prop :=
  ∃ t, r = .next t ∧ FaultLeaves code op pc' s t

/-- The six comparisons (R28). -/
def isComparison : Instr → Bool
  | .eq _ _ _ | .neq _ _ _ | .gt _ _ _ | .lt _ _ _ | .gteq _ _ _ | .lteq _ _ _ => true
  | .hlt | .load _ _ | .add _ _ _ | .sub _ _ _ | .mul _ _ _ | .div _ _ _ | .jmp _ | .jmpf _ | .jmpb _ | .jeq _
  | .jneq _ | .illegal _ => false

/-- The two conditional jumps (R28). -/
def isCondJump : Instr → Bool
  | .jeq _ | .jneq _ => true
  | .hlt | .load _ _ | .add _ _ _ | .sub _ _ _ | .mul _ _ _ | .div _ _ _ | .jmp _ | .jmpf _ | .jmpb _
  | .eq _ _ _ | .neq _ _ _ | .gt _ _ _ | .lt _ _ _ | .gteq _ _ _ | .lteq _ _ _ | .illegal _ => false

/-- The byte that names the register an instruction writes, for the five that write one (R22). -/
def destByte : Instr → Option Byte
  | .load r _ => some r
  | .add _ _ r3 | .sub _ _ r3 | .mul _ _ r3 | .div _ _ r3 => some r3
  | .hlt | .jmp _ | .jmpf _ | .jmpb _ | .eq _ _ _ | .neq _ _ _ | .gt _ _ _ | .lt _ _ _ | .gteq _ _ _
  | .lteq _ _ _ | .jeq _ | .jneq _ | .illegal _ => none

/-- The register byte that names register `i` (R68). -/
def regByte (i : Fin 32) : Byte := BitVec.ofNat 8 i.val

/-- A byte that names no register (R68). -/
def badReg (b : Byte) : Prop := 32 ≤ b.toNat

/-- The program bytes at `pc` begin with `bs` (R41). -/
def BytesAtPc (s : State) (bs : List Byte) : Prop :=
  ∀ k, k < bs.length → s.prog.read (u32 s.pc + k) = bs[k]?

/-- The bytes at `pc` are `bs`, and the address after them holds no byte (R48). -/
def ProgEndsAfter (s : State) (bs : List Byte) : Prop :=
  BytesAtPc s bs ∧ s.prog.read (u32 s.pc + bs.length) = none

end Sys2Proof.Machine
end

