-- ==== Sys2Proof/Certificates/Slice0/Obligations.lean ====
section
/-! DEFINITION. The statements for the provers. Each says what a rule of the spec says an operation or the machine does.
A docstring names the spec's own decision (D<n>) wherever a clause rests on one, and the log entry wherever it rests on
the model's. -/

section

open Sys2Proof Sys2Proof.Machine

/-! ### Encoding -/

/-- One word for each of the 17 codes, written out byte by byte from the format tables R61 to R65 and the opcode map
R66, and a reserved and an unassigned byte, decode to what they stand for; and three words of the opcode table, numbered
as R8 draws an instruction, are read so. The codes of LOAD, JMP, JMPF, JMPB and EQ are anchored by the document's
examples (S1 to S6); the other twelve are the spec's decision D1, the bytes left over after JMP, JEQ and JNEQ its
decision D3, those after HLT and an illegal byte its decision D4 (log entry 10). The numbering of the table's words is
the model's reading, log entry 1. -/
def Obligations.WrittenOutWordsDecode : Prop :=
  decode [0x00, 0x2A] = .ok .hlt [0x2A] ∧
  decode [0x01, 0x00, 0x01, 0xF4] = .ok (.load 0 500) [] ∧
  decode [0x02, 0x00, 0x01, 0x02] = .ok (.add 0 1 2) [] ∧
  decode [0x03, 0x04, 0x05, 0x06] = .ok (.sub 4 5 6) [] ∧
  decode [0x04, 0x1F, 0x00, 0x01] = .ok (.mul 31 0 1) [] ∧
  decode [0x05, 0x00, 0x01, 0x05] = .ok (.div 0 1 5) [] ∧
  decode [0x07, 0x00, 0x00, 0x00] = .ok (.jmp 0) [0x00, 0x00] ∧
  decode [0x08, 0x02] = .ok (.jmpf 2) [] ∧
  decode [0x09, 0x03] = .ok (.jmpb 3) [] ∧
  decode [0x0A, 0x00, 0x01, 0x00, 0x0A, 0x00, 0x01, 0x00] = .ok (.eq 0 1 0) [0x0A, 0x00, 0x01, 0x00] ∧
  decode [0x0B, 0x02, 0x03, 0x00] = .ok (.neq 2 3 0) [] ∧
  decode [0x0C, 0x07, 0x1F, 0xFF] = .ok (.gt 7 31 255) [] ∧
  decode [0x0D, 0x04, 0x05, 0x00] = .ok (.lt 4 5 0) [] ∧
  decode [0x0E, 0x06, 0x07, 0x01] = .ok (.gteq 6 7 1) [] ∧
  decode [0x0F, 0x08, 0x09, 0x00] = .ok (.lteq 8 9 0) [] ∧
  decode [0x10, 0x05, 0x00] = .ok (.jeq 5) [0x00] ∧
  decode [0x11, 0x04, 0x00] = .ok (.jneq 4) [0x00] ∧
  decode [0x06, 0x00] = .ok (.illegal 6) [0x00] ∧
  decode [0x12] = .ok (.illegal 18) [] ∧
  decodeTableWord 32 0x010001F4 = some (.load 0 500) ∧
  decodeTableWord 16 0x0907 = some (.jmpb 7) ∧
  decodeTableWord 8 0x12 = some (.illegal 18)

/-- Decoding and encoding are inverse to each other. The bytes of an instruction decode to it, whatever bytes follow, at
every value of every operand byte (register bytes of 32 and more and spare bytes among them); and whatever bytes decode
to an instruction are its bytes. The one condition is that an ILLEGAL carries a byte that is no opcode. Rests on the
code assignment D1 and the lengths D3, D4 (log entry 10). -/
def Obligations.DecodeAndEncodeAreInverse : Prop :=
  (∀ (i : Instr) (rest : List Byte), i.opcodeWf = true → decode (encode i ++ rest) = .ok i rest) ∧
  (∀ (bs rest : List Byte) (i : Instr), decode bs = .ok i rest → bs = encode i ++ rest ∧ i.opcodeWf = true)

/-- The opcode byte alone decides the instruction and its length: with three bytes after it, every opcode byte decodes,
to an instruction that carries that opcode, ILLEGAL exactly for 6 and 18 to 255, of 1 byte for HLT and ILLEGAL, 2 for
the R format, 4 for the rest, and just those bytes are taken. Rests on the code assignment D1 and the lengths D3, D4. -/
def Obligations.OpcodeByteDecidesInstructionAndLength : Prop :=
  ∀ (op : Byte) (rest : List Byte), 3 ≤ rest.length →
    ∃ i tail, decode (op :: rest) = .ok i tail ∧ i.opcode = op ∧
      ((∃ b, i = .illegal b) ↔ op.toNat = 6 ∨ 18 ≤ op.toNat) ∧
      op :: rest = encode i ++ tail ∧
      (encode i).length =
        (if op.toNat = 0 ∨ op.toNat = 6 ∨ 18 ≤ op.toNat then 1
         else if op.toNat ∈ [7, 8, 9, 16, 17] then 2 else 4)

/-- R44: the 16-bit immediate of LOAD is `prog[a] * 256 + prog[a + 1]`, the byte at the lower address high. -/
def Obligations.LoadImmediateIsBigEndian : Prop :=
  ∀ (r hi lo : Byte) (rest : List Byte), ∃ imm : Half,
    decode (0x01 :: r :: hi :: lo :: rest) = .ok (.load r imm) rest ∧ imm.toNat = hi.toNat * 256 + lo.toNat

/-! ### STEP -/

/-- When the bytes at `pc` of a running engine decode to an instruction, a STEP is that instruction's meaning on the
state (whose `pc` is ipc); the meaning itself moves `pc`. -/
def Obligations.StepRunsTheDecodedInstruction : Prop :=
  ∀ (s : State) (bs rest : List Byte) (i : Instr), s.status = .running → BytesAtPc s bs → decode bs = .ok i rest →
    step s = exec i s

/-- A STEP of a HALTED or FAULTED engine changes nothing, whatever its memory holds, and its result is false. R102, the
spec's decisions D6 and D7. -/
def Obligations.TerminalStepChangesNothing : Prop :=
  ∀ s : State, s.status = .halted ∨ s.status = .faulted → step s = .next s ∧ HostOp.continues s = false

/-- A running engine with no byte at `pc` raises PC_PAST_END: cause 2, fopcode 0, fpc = pc, `pc` unchanged. R103, R182;
the spec's decision D7, the code D8 and the record D9 (log entry 12). -/
def Obligations.FetchPastEndFaults : Prop :=
  ∀ s : State, s.status = .running → s.prog.read (u32 s.pc) = none → Faults (step s) 2 0 s.pc s

/-- A program that ends inside an instruction raises OPERAND_PAST_END (cause 3), whatever the operand bytes that are
there hold, with `pc` at the unit that could not be read: after the bytes read, but at ipc + 2 when LOAD's two-byte
immediate is not whole. Holds for every instruction with operands; HLT and ILLEGAL have no shorter form. R183, R189; the
order of checks is the spec's decision D10, the value of `pc` D11, the code D8 and the record D9 (log entry 12), the
length of JMP, JEQ and JNEQ D3, the opcode bytes D1 (log entry 10). -/
def Obligations.TruncatedInstructionFaults : Prop :=
  ∀ (s : State) (i : Instr) (k : Nat), s.status = .running → 1 ≤ k → k < (encode i).length →
    ProgEndsAfter s ((encode i).take k) →
    Faults (step s) 3 i.opcode
      (s.pc + BitVec.ofNat 32 (match i with | .load _ _ => min k 2 | _ => k)) s

/-- An instruction with a register field of 32 or more raises REG_INDEX (cause 4) with `pc` after the instruction,
whatever else is the case: a zero divisor, a jump not taken, a negative target. Covers all sixteen instructions with a
register field, whichever of their fields is bad. R184, R189; the order of checks is the spec's decision D10, `pc` D11,
the code D8 and the record D9 (log entry 12), the opcode bytes D1 (log entry 10). -/
def Obligations.BadRegisterFieldFaults : Prop :=
  ∀ (s : State) (i : Instr) (b : Byte), b ∈ i.regBytes → badReg b →
    Faults (exec i s) 4 i.opcode (s.pc + BitVec.ofNat 32 (encode i).length) s

/-- Every STEP of every state answers a next state: no instruction and no byte sequence stops the model (R101). That a
fault of the engine is a next state, since R190 describes its entry, is the model's reading, log entry 5; that a STEP of
a terminal engine changes nothing (R102) is the spec's decisions D6 and D7. Which state it is, the other statements say.
-/
def Obligations.EveryStepAnswersANextState : Prop :=
  ∀ s : State, ∃ t, step s = .next t

/-- STEP's result: it is false exactly if the engine was already terminal, or the byte at `pc` was HLT's (0x00), or the
STEP left FAULTED. R107; the result on a fault is the spec's decision D23, HLT's code D1. -/
def Obligations.StepResultIsFalseExactlyAtTheEnd : Prop :=
  ∀ s t : State, step s = .next t →
    (HostOp.continues t = false ↔
      s.status ≠ .running ∨ s.prog.read (u32 s.pc) = some 0x00 ∨ t.status = .faulted)

/-! ### LOAD -/

/-- R120. Encoding: 01, r, then the immediate's high and low byte. Operation: the register holds the immediate's
unsigned value, so bits 31:16 are clear; only that register and `pc` (ipc + 4) change. Faults: REG_INDEX with `pc` = ipc
+ 4, OPERAND_PAST_END with `pc` = ipc + 1 if B1 is missing and ipc + 2 if the immediate is not whole; no register
changes. Behind the `pc` of the faults stand the spec's decisions D10 and D11, behind their codes and the record D8 and
D9 (R180, R31; log entry 12). -/
def Obligations.LoadZeroExtendsTheImmediate : Prop :=
  (∀ (d : Fin 32) (imm : Half) (s : State), ∃ t, exec (.load (regByte d) imm) s = .next t ∧
    u32 (t.reg d) = imm.toNat ∧ WritesOnlyReg d s t) ∧
  (∀ (r : Byte) (imm : Half), ∃ hi lo : Byte, encode (.load r imm) = [0x01, r, hi, lo] ∧
    imm.toNat = hi.toNat * 256 + lo.toNat) ∧
  (∀ (r : Byte) (imm : Half) (s : State), badReg r → Faults (exec (.load r imm) s) 4 0x01 (s.pc + 4) s) ∧
  (∀ s : State, s.status = .running →
    (ProgEndsAfter s [0x01] → Faults (step s) 3 0x01 (s.pc + 1) s) ∧
    (∀ b1 : Byte, ProgEndsAfter s [0x01, b1] → Faults (step s) 3 0x01 (s.pc + 2) s) ∧
    (∀ b1 b2 : Byte, ProgEndsAfter s [0x01, b1, b2] → Faults (step s) 3 0x01 (s.pc + 2) s))

/-- R85: with the literal narrowed as the assembler narrows it, `load $r #n` sets `x[r]` to `n mod 65536`. -/
def Obligations.LoadOfNarrowedLiteralIsItsValueMod65536 : Prop :=
  ∀ (d : Fin 32) (n : Int) (s : State),
    ∃ t, exec (.load (regByte d) (Assembler.narrow n)) s = .next t ∧ (u32 (t.reg d) : Int) = n % 65536 ∧
      s32 (t.reg d) = n % 65536 ∧ WritesOnlyReg d s t

/-! ### Arithmetic -/

/-- ADD completes on every three registers, equal or not: `x[r3]` is the exact signed sum modulo 2^32, the sources read
before the write; only `x[r3]` and `pc` change. R130; the code 0x02 is the spec's decision D1. -/
def Obligations.AddWritesTheSumModulo2Pow32 : Prop :=
  ∀ (a b d : Fin 32) (s : State), ∃ t, exec (.add (regByte a) (regByte b) (regByte d)) s = .next t ∧
    (u32 (t.reg d) : Int) = (s32 (s.reg a) + s32 (s.reg b)) % 2 ^ 32 ∧ WritesOnlyReg d s t

/-- SUB completes: `x[r3]` is the first operand minus the second, modulo 2^32; only `x[r3]` and `pc` change. R131; that
overflow wraps is the spec's decision D12. -/
def Obligations.SubWritesTheDifferenceModulo2Pow32 : Prop :=
  ∀ (a b d : Fin 32) (s : State), ∃ t, exec (.sub (regByte a) (regByte b) (regByte d)) s = .next t ∧
    (u32 (t.reg d) : Int) = (s32 (s.reg a) - s32 (s.reg b)) % 2 ^ 32 ∧ WritesOnlyReg d s t

/-- MUL completes: `x[r3]` is the exact signed product modulo 2^32, its low 32 bits; only `x[r3]` and `pc` change. R132;
that overflow wraps is the spec's decision D12. -/
def Obligations.MulWritesTheProductModulo2Pow32 : Prop :=
  ∀ (a b d : Fin 32) (s : State), ∃ t, exec (.mul (regByte a) (regByte b) (regByte d)) s = .next t ∧
    (u32 (t.reg d) : Int) = (s32 (s.reg a) * s32 (s.reg b)) % 2 ^ 32 ∧ WritesOnlyReg d s t

/-- ADD, SUB and MUL give the pattern of the bit-vector operation, signed or unsigned (G2, R134 "the result pattern is
the same"). That SUB and MUL complete with the wrapped pattern is the spec's decision D12 (log entry 11). -/
def Obligations.WrappingArithmeticIgnoresSignedness : Prop :=
  ∀ (a b d : Fin 32) (s : State),
    (∃ t, exec (.add (regByte a) (regByte b) (regByte d)) s = .next t ∧ t.reg d = s.reg a + s.reg b) ∧
    (∃ t, exec (.sub (regByte a) (regByte b) (regByte d)) s = .next t ∧ t.reg d = s.reg a - s.reg b) ∧
    (∃ t, exec (.mul (regByte a) (regByte b) (regByte d)) s = .next t ∧ t.reg d = s.reg a * s.reg b)

/-- DIV completes when the divisor is not 0 and the case is not -2^31 / -1: quotient and remainder satisfy `a = q * b +
r`, `|r| < |b|`, `r` zero or of the sign of `a`; `x[r3]` reads as `q`, `rem` as `r`; nothing else but `pc` changes.
Since these facts fix `q` and `r`, this is the whole table of R136. R133, R136, R137; the rounding and the sign are the
spec's decision D13. -/
def Obligations.DivWritesTheTruncatedQuotientAndRemainder : Prop :=
  ∀ (a b d : Fin 32) (s : State), s32 (s.reg b) ≠ 0 → ¬(s32 (s.reg a) = -2 ^ 31 ∧ s32 (s.reg b) = -1) →
    ∃ t, exec (.div (regByte a) (regByte b) (regByte d)) s = .next t ∧
      ∃ q r : Int, s32 (s.reg a) = q * s32 (s.reg b) + r ∧ |r| < |s32 (s.reg b)| ∧
        (r = 0 ∨ r.sign = (s32 (s.reg a)).sign) ∧ s32 (t.reg d) = q ∧ s32 t.rem = r ∧
        SameRegsBut d s t ∧ t.pc = s.pc + 4 ∧ t.eqf = s.eqf ∧ SameControl s t

/-- DIV by zero raises DIV_BY_ZERO (cause 5), whatever the dividend, and -2^31 / -1 raises DIV_OVERFLOW (cause 6); `pc`
= ipc + 4 and neither `x[r3]` nor `rem` changes. R133, R185, R186; the overflow fault is the spec's decision D14, the
unchanged state D15, `pc` D11, the causes' codes D8, the record D9, DIV's opcode 0x05 D1 (log entries 10 to 12). -/
def Obligations.DivFaultsOnZeroAndOnOverflow : Prop :=
  ∀ (a b d : Fin 32) (s : State),
    (s32 (s.reg b) = 0 →
      Faults (exec (.div (regByte a) (regByte b) (regByte d)) s) 5 0x05 (s.pc + 4) s) ∧
    (s32 (s.reg a) = -2 ^ 31 → s32 (s.reg b) = -1 →
      Faults (exec (.div (regByte a) (regByte b) (regByte d)) s) 6 0x05 (s.pc + 4) s)

/-! ### Jumps -/

/-- JMP completes exactly on a register that is not negative: `pc` is its value, whatever `len` is, and nothing else
changes; on a negative one it raises NEG_JUMP_OPERAND (cause 8) with `pc` = ipc + 2. R140, R143, R144; the fault is the
spec's decision D16, its code and record D8 and D9, the unchecked target D17, the length D3. -/
def Obligations.JmpJumpsToTheRegister : Prop :=
  ∀ (r : Fin 32) (s : State),
    (0 ≤ s32 (s.reg r) → ∃ t, exec (.jmp (regByte r)) s = .next t ∧ (u32 t.pc : Int) = s32 (s.reg r) ∧
      WritesOnlyPc s t) ∧
    (s32 (s.reg r) < 0 → Faults (exec (.jmp (regByte r)) s) 8 0x07 (s.pc + 2) s)

/-- JMPF completes exactly on a register that is not negative: `pc` is ipc + 2 plus its value, with no wrap, and nothing
else changes; on a negative one it raises NEG_JUMP_OPERAND. That ipc + 2 is at most 2^31 where a JMPF can be fetched is
`FetchedInstructionLiesInTheProgram` and the bound on `len`. R141, R143, R26; the fault is the spec's decision D16, its
code and record D8 and D9. -/
def Obligations.JmpfJumpsForward : Prop :=
  ∀ (r : Fin 32) (s : State), u32 s.pc + 2 ≤ 2 ^ 31 →
    (0 ≤ s32 (s.reg r) → ∃ t, exec (.jmpf (regByte r)) s = .next t ∧
      (u32 t.pc : Int) = u32 s.pc + 2 + s32 (s.reg r) ∧ WritesOnlyPc s t) ∧
    (s32 (s.reg r) < 0 → Faults (exec (.jmpf (regByte r)) s) 8 0x08 (s.pc + 2) s)

/-- JMPB completes exactly on a register from 0 to ipc + 2: `pc` is ipc + 2 minus its value, and nothing else changes;
above that it raises PC_UNDERFLOW (cause 7), below 0 NEG_JUMP_OPERAND, both with `pc` = ipc + 2. R142, R143, R187; the
negative case is the spec's decision D16, the codes and the record D8 and D9. -/
def Obligations.JmpbJumpsBackward : Prop :=
  ∀ (r : Fin 32) (s : State), u32 s.pc + 2 ≤ 2 ^ 31 →
    (0 ≤ s32 (s.reg r) → s32 (s.reg r) ≤ u32 s.pc + 2 → ∃ t, exec (.jmpb (regByte r)) s = .next t ∧
      (u32 t.pc : Int) = u32 s.pc + 2 - s32 (s.reg r) ∧ WritesOnlyPc s t) ∧
    (s32 (s.reg r) > u32 s.pc + 2 → Faults (exec (.jmpb (regByte r)) s) 7 0x09 (s.pc + 2) s) ∧
    (s32 (s.reg r) < 0 → Faults (exec (.jmpb (regByte r)) s) 8 0x09 (s.pc + 2) s)

/-- JEQ with `eqf` = 1 is JMP's jump, absolute; with `eqf` = 0 it falls through to ipc + 2 whatever the register holds.
Nothing else changes. R160, R162; the fault on a negative target is the spec's decision D16, its code and record D8 and
D9, the opcode D1, the length D3. -/
def Obligations.JeqJumpsWhenTheFlagIsSet : Prop :=
  ∀ (r : Fin 32) (s : State),
    (s.eqf = true → 0 ≤ s32 (s.reg r) → ∃ t, exec (.jeq (regByte r)) s = .next t ∧ (u32 t.pc : Int) = s32 (s.reg r) ∧
      WritesOnlyPc s t) ∧
    (s.eqf = true → s32 (s.reg r) < 0 → Faults (exec (.jeq (regByte r)) s) 8 0x10 (s.pc + 2) s) ∧
    (s.eqf = false → ∃ t, exec (.jeq (regByte r)) s = .next t ∧ t.pc = s.pc + 2 ∧ WritesOnlyPc s t)

/-- JNEQ with `eqf` = 0 is JMP's jump, absolute; with `eqf` = 1 it falls through to ipc + 2 whatever the register holds.
Nothing else changes. R161, R162; the fault on a negative target is the spec's decision D16, its code and record D8 and
D9, the opcode D1, the length D3. -/
def Obligations.JneqJumpsWhenTheFlagIsClear : Prop :=
  ∀ (r : Fin 32) (s : State),
    (s.eqf = false → 0 ≤ s32 (s.reg r) → ∃ t, exec (.jneq (regByte r)) s = .next t ∧
      (u32 t.pc : Int) = s32 (s.reg r) ∧ WritesOnlyPc s t) ∧
    (s.eqf = false → s32 (s.reg r) < 0 → Faults (exec (.jneq (regByte r)) s) 8 0x11 (s.pc + 2) s) ∧
    (s.eqf = true → ∃ t, exec (.jneq (regByte r)) s = .next t ∧ t.pc = s.pc + 2 ∧ WritesOnlyPc s t)

/-- Where the program memory is in canonical form, an instruction that is fetched whole lies in it: `pc` plus its length
is at most `len`. So where `len` is at most 2^31, as it is in every reachable state (`ReachableStatesMeetTheInvariant`),
no advance and no JMPF wraps. R26, R48. -/
def Obligations.FetchedInstructionLiesInTheProgram : Prop :=
  ∀ (s : State) (i : Instr) (rest : List Byte), s.prog.wf = true → s.fetch = .ok i rest →
    u32 s.pc + (encode i).length ≤ s.len

/-- R26: `pc` never wraps. With a program in canonical form of at most 2^31 bytes (both hold of every reachable state),
a STEP that completes an instruction leaves, as numbers, ipc + its length, or ipc + 2 plus or minus the register of a
JMPF or JMPB, or the register of an absolute jump. The width of `pc` and the bound are the spec's decision D5, the
lengths D3 and D4. -/
def Obligations.PcNeverWraps : Prop :=
  ∀ (s t : State) (i : Instr) (rest : List Byte), s.prog.wf = true → s.len ≤ 2 ^ 31 → s.status = .running →
    s.fetch = .ok i rest → step s = .next t → t.status ≠ .faulted →
    match i with
    | .jmp r => ∃ j, r = regByte j ∧ (u32 t.pc : Int) = s32 (s.reg j)
    | .jmpf r => ∃ j, r = regByte j ∧ (u32 t.pc : Int) = u32 s.pc + 2 + s32 (s.reg j)
    | .jmpb r => ∃ j, r = regByte j ∧ (u32 t.pc : Int) = u32 s.pc + 2 - s32 (s.reg j)
    | .jeq r => ∃ j, r = regByte j ∧ (u32 t.pc : Int) = if s.eqf then s32 (s.reg j) else (u32 s.pc : Int) + 2
    | .jneq r => ∃ j, r = regByte j ∧ (u32 t.pc : Int) = if s.eqf then (u32 s.pc : Int) + 2 else s32 (s.reg j)
    | i => u32 t.pc = u32 s.pc + (encode i).length

/-! ### Comparisons -/

/-- EQ and NEQ complete on every two registers and every spare byte: `eqf` is whether the registers' signed values are
equal, unequal; nothing else but `pc` changes. R150, R151; the code of NEQ is the spec's decision D1. -/
def Obligations.EqAndNeqWriteTheFlag : Prop :=
  ∀ (a b : Fin 32) (spare : Byte) (s : State),
    (∃ t, exec (.eq (regByte a) (regByte b) spare) s = .next t ∧
      (t.eqf = true ↔ s32 (s.reg a) = s32 (s.reg b)) ∧ WritesOnlyFlag s t) ∧
    (∃ t, exec (.neq (regByte a) (regByte b) spare) s = .next t ∧
      (t.eqf = true ↔ s32 (s.reg a) ≠ s32 (s.reg b)) ∧ WritesOnlyFlag s t)

/-- GT, LT, GTEQ and LTEQ complete on every two registers and every spare byte: `eqf` is the signed comparison, the
first register on the left; nothing else but `pc` changes. R152 to R155; signedness and side are the spec's decision
D19. -/
def Obligations.OrderingComparisonsWriteTheFlag : Prop :=
  ∀ (a b : Fin 32) (spare : Byte) (s : State),
    (∃ t, exec (.gt (regByte a) (regByte b) spare) s = .next t ∧
      (t.eqf = true ↔ s32 (s.reg a) > s32 (s.reg b)) ∧ WritesOnlyFlag s t) ∧
    (∃ t, exec (.lt (regByte a) (regByte b) spare) s = .next t ∧
      (t.eqf = true ↔ s32 (s.reg a) < s32 (s.reg b)) ∧ WritesOnlyFlag s t) ∧
    (∃ t, exec (.gteq (regByte a) (regByte b) spare) s = .next t ∧
      (t.eqf = true ↔ s32 (s.reg a) ≥ s32 (s.reg b)) ∧ WritesOnlyFlag s t) ∧
    (∃ t, exec (.lteq (regByte a) (regByte b) spare) s = .next t ∧
      (t.eqf = true ↔ s32 (s.reg a) ≤ s32 (s.reg b)) ∧ WritesOnlyFlag s t)

/-- R157: the spare byte of a comparison must be there, else OPERAND_PAST_END with `pc` at it; and its value makes no
difference: two states alike but for their programs, which agree at `pc` up to the spare byte, step to states alike but
for their programs. A comparison writes no general register. That the opcodes 10 to 15 are the comparisons is R65 and
R66; of these only EQ's is anchored, 11 to 15 are the spec's decision D1 (log entry 10). The fault is R104 and R183; its
`pc` is the spec's decision D11, its code and record D8 and D9 (log entry 12). -/
def Obligations.SpareByteIsReadAndIgnored : Prop :=
  ∀ (op b1 b2 : Byte) (s : State), 10 ≤ op.toNat → op.toNat ≤ 15 → s.status = .running →
    (ProgEndsAfter s [op, b1, b2] → Faults (step s) 3 op (s.pc + 3) s) ∧
    (∀ (spare spare' : Byte) (prog' : Memory), BytesAtPc s [op, b1, b2, spare] →
      BytesAtPc (s.setProg prog') [op, b1, b2, spare'] →
      ∃ t, step s = .next t ∧ step (s.setProg prog') = .next (t.setProg prog') ∧ SameRegs s t)

/-! ### HLT, illegal opcodes, fault entry -/

/-- HLT completes in every state: `status` HALTED, `pc` = ipc + 1, nothing else changed, the fault record least of all;
and wherever its byte lies, the last byte of the program included, a STEP runs it and its result is false. R170; the
code 0x00 is the spec's decision D1, the length D4, the register D6. -/
def Obligations.HltHaltsNormally : Prop :=
  (∀ s : State, ∃ t, exec .hlt s = .next t ∧ t.status = .halted ∧ t.pc = s.pc + 1 ∧ SameRegs s t ∧ t.eqf = s.eqf ∧
    t.rem = s.rem ∧ t.fcause = s.fcause ∧ t.fopcode = s.fopcode ∧ t.fpc = s.fpc ∧ SameProg s t) ∧
  (∀ s : State, s.status = .running → s.prog.read (u32 s.pc) = some 0x00 →
    ∃ t, step s = .next t ∧ exec .hlt s = .next t ∧ HostOp.continues t = false)

/-- R171 and R181: an opcode byte 6 or 18 to 255 raises ILLEGAL_OPCODE: cause 1, fopcode the byte, fpc = ipc, `pc` = ipc
+ 1; no operand byte is read (whatever follows it, or nothing), and nothing else changes. The length of one byte is the
spec's decision D4, the code and the record D8 and D9, which bytes are no opcode D1. The first clause holds of an
ILLEGAL that carries one of the 17 codes too; the spec has no such instruction, none decodes, and that part is the
model's choice, log entry 14. -/
def Obligations.IllegalOpcodeFaults : Prop :=
  (∀ (b : Byte) (s : State), Faults (exec (.illegal b) s) 1 b (s.pc + 1) s) ∧
  (∀ (b : Byte) (s : State), s.status = .running → s.prog.read (u32 s.pc) = some b → (b.toNat = 6 ∨ 18 ≤ b.toNat) →
    ∃ t, step s = .next t ∧ exec (.illegal b) s = .next t ∧ HostOp.continues t = false)

/-- A STEP of a running engine that leaves FAULTED wrote the fault record and nothing else but `pc`: no register, not
`eqf`, not `rem`, no program byte; fpc = ipc; fopcode is the byte at ipc, or 0 exactly where there is none; and the
cause is one of the eight. R190, R191; that nothing else is written is the spec's decision D11, the record D8 and D9. -/
def Obligations.FaultEntryWritesOnlyTheRecord : Prop :=
  ∀ s t : State, s.status = .running → step s = .next t → t.status = .faulted →
    FaultLeaves t.fcause ((s.prog.read (u32 s.pc)).getD 0) t.pc s t ∧
    1 ≤ t.fcause.toNat ∧ t.fcause.toNat ≤ 8 ∧ (t.fcause = 2 ↔ s.prog.read (u32 s.pc) = none)

/-! ### Frames over all instructions -/

/-- R28: `eqf` is written by the six comparisons and by nothing else; each that completes overwrites it, so its old
value does not matter; JEQ and JNEQ read it and no other instruction does: from two states alike but for `eqf` every
other instruction leads to states alike but for `eqf`; reset leaves it 0, which is the spec's decision D21 (log entry
9). -/
def Obligations.EqfIsWrittenOnlyByComparisonsAndReadOnlyByJeqJneq : Prop :=
  (∀ (i : Instr) (s t : State), exec i s = .next t → t.eqf ≠ s.eqf → isComparison i = true) ∧
  (∀ (i : Instr) (s t : State) (e : Bool), isComparison i = true → exec i s = .next t →
    t.status ≠ .faulted → exec i (s.setEqf e) = .next t) ∧
  (∀ (i : Instr) (s t : State) (e : Bool), isCondJump i = false → exec i s = .next t →
    ∃ e', exec i (s.setEqf e) = .next (t.setEqf e')) ∧
  State.reset.eqf = false

/-- Which registers an instruction can change: if one changes, the instruction is LOAD, ADD, SUB, MUL or DIV, the
register is the one its destination byte names, and the instruction did not fault. R22; that a faulting instruction
writes none is the spec's decision D11. -/
def Obligations.OnlyTheDestinationRegisterChanges : Prop :=
  ∀ (i : Instr) (s t : State) (j : Fin 32), exec i s = .next t → t.reg j ≠ s.reg j →
    destByte i = some (regByte j) ∧ t.status = s.status ∧ t.fcause = s.fcause

/-- R42: no instruction and no STEP writes the program memory; ADD_BYTE appends to it, which leaves every byte that is
there and adds to the length; RESET empties it. -/
def Obligations.ProgramMemoryIsWrittenOnlyByTheHost : Prop :=
  (∀ (i : Instr) (s t : State), exec i s = .next t → t.prog = s.prog) ∧
  (∀ s t : State, step s = .next t → t.prog = s.prog) ∧
  (∀ (b : Byte) (s t : State), HostOp.addByte b s = .next t → t = s.setProg (s.prog.append b)) ∧
  (∀ (b v : Byte) (m : Memory) (a : Nat), m.read a = some v → (m.append b).read a = some v ∧ m.len < (m.append b).len) ∧
  (∀ s : State, (HostOp.reset s).len = 0 ∧ ∀ a, (HostOp.reset s).prog.read a = none)

/-- The transitions of `status`: a STEP leaves HALTED and FAULTED as they are, and from RUNNING goes to HALTED exactly
where the byte at `pc` is HLT's. R30; the register is the spec's decision D6, HLT's code D1. -/
def Obligations.StatusTransitions : Prop :=
  ∀ s t : State, step s = .next t →
    (s.status ≠ .running → t.status = s.status) ∧
    (s.status = .running → (t.status = .halted ↔ s.prog.read (u32 s.pc) = some 0x00))

/-- No program can read `rem`: from two states alike but for `rem`, RUN under any fuel ends or does not end alike, in
states alike but for `rem`. And `rem` is written by a STEP only if the byte at `pc` is DIV's and the STEP did not fault.
R29, R33; DIV's code is the spec's decision D1; `runFuel` is the model's form of RUN, log entry 8. -/
def Obligations.RemIsNeverRead : Prop :=
  (∀ (n : Nat) (s : State) (v : Word),
    (HostOp.runFuel n (s.setRem v)).map (State.setRem · 0) = (HostOp.runFuel n s).map (State.setRem · 0)) ∧
  (∀ s t : State, step s = .next t → t.rem ≠ s.rem →
    s.status = .running ∧ s.prog.read (u32 s.pc) = some 0x05 ∧ t.status = .running)

/-! ### Invariant -/

/-- The invariant holds right after RESET (R36, R210; the reset values of `status`, the record and the program are the
spec's decision D21). -/
def Obligations.ResetMeetsTheInvariant : Prop := State.reset.Inv

/-- Every STEP keeps the invariant, from every state that meets it: the program memory in canonical form and within
PROG_CAP, the fault record zero until a fault, the cause known after one, `pc` after the HLT byte once HALTED, the
record true of the program. R36, R112, R31; behind the record stand the spec's decisions D7 to D9, behind the terminal
states D6, behind HLT's code and length D1 and D4. -/
def Obligations.StepKeepsTheInvariant : Prop :=
  ∀ s t : State, s.Inv → step s = .next t → t.Inv

/-- ADD_BYTE keeps the invariant, in every status (R36, R43; that it is allowed there is the spec's decision D22). -/
def Obligations.AddByteKeepsTheInvariant : Prop :=
  ∀ (b : Byte) (s t : State), s.Inv → HostOp.addByte b s = .next t → t.Inv

/-- Every state that the host's operations reach from RESET meets the invariant (R36), and its `len` is at most
PROG_CAP, so at most 2^31 (R5, the spec's decision D5; log entry 2). -/
def Obligations.ReachableStatesMeetTheInvariant : Prop :=
  ∀ s : State, Reachable s → s.Inv ∧ s.len ≤ 2 ^ 31

/-! ### The host's operations -/

/-- R23 and R27: after RESET, in any state, every register is 0 and `pc` is 0. -/
def Obligations.ResetZeroesRegistersAndPc : Prop :=
  ∀ s : State, (∀ j, (HostOp.reset s).reg j = 0) ∧ (HostOp.reset s).pc = 0 ∧ HostOp.reset s = State.reset

/-- After RESET the flag, `rem` and the fault record are 0, `status` is RUNNING and the program empty. R210, R211; of
these values the spec's decision D21 is the source. -/
def Obligations.ResetClearsFlagRemStatusAndRecord : Prop :=
  ∀ s : State, (HostOp.reset s).eqf = false ∧ (HostOp.reset s).rem = 0 ∧ (HostOp.reset s).status = .running ∧
    (HostOp.reset s).fcause = 0 ∧ (HostOp.reset s).fopcode = 0 ∧ (HostOp.reset s).fpc = 0 ∧ (HostOp.reset s).len = 0

/-- ADD_BYTE below capacity answers the state with that byte at `len`, `len` one more, every other byte and everything
else as it was, in every status; at capacity it is refused. R43; the refusal and the permission in terminal states are
the spec's decision D22. -/
def Obligations.AddByteAppendsOrIsRefused : Prop :=
  ∀ (b : Byte) (s : State), s.prog.wf = true →
    (s.len < Config.progCap → ∃ t, HostOp.addByte b s = .next t ∧ t.len = s.len + 1 ∧ t.prog.read s.len = some b ∧
      (∀ a, a ≠ s.len → t.prog.read a = s.prog.read a) ∧ SameRegs s t ∧ t.pc = s.pc ∧ t.eqf = s.eqf ∧ t.rem = s.rem ∧
      t.status = s.status ∧ t.fcause = s.fcause ∧ t.fopcode = s.fopcode ∧ t.fpc = s.fpc) ∧
    (Config.progCap ≤ s.len → HostOp.addByte b s = .refused .programFull)

/-- A program of at most PROG_CAP bytes, loaded after RESET by ADD_BYTE in address order, is there byte for byte, is
what READ_PROG returns, and leaves everything else as RESET left it. R43, R55, R56, R212; the capacity is the spec's
decision D5 (entry 2). -/
def Obligations.LoadedProgramIsReadBack : Prop :=
  ∀ bs : List Byte, bs.length ≤ Config.progCap →
    ∃ t, HostOp.load bs State.reset = .next t ∧ HostOp.readProg t = bs ∧ t.len = bs.length ∧
      (∀ k, t.prog.read k = bs[k]?) ∧ t = State.reset.setProg t.prog

/-- R55: READ_PROG returns the sequence `prog[0]` to `prog[len - 1]`, in every status: as many bytes as `len`, the
`k`-th of them the byte at address `k`. -/
def Obligations.ReadProgReturnsTheProgramBytes : Prop :=
  ∀ s : State, s.prog.wf = true →
    (HostOp.readProg s).length = s.len ∧ ∀ k, (HostOp.readProg s)[k]? = s.prog.read k

/-- READ_REGS and the debug views return the registers as they stand, in every status; `status` shows RUNNING as 0,
HALTED as 1, FAULTED as 2, never 3. R34, R35, R30; the debug views are the spec's decision D24, the codes D6. -/
def Obligations.ViewsShowTheStateAsItStands : Prop :=
  ∀ s : State, (∀ j : Fin 32, (HostOp.readRegs s)[j] = s.reg j) ∧
    (HostOp.debugView s).pc = s.pc ∧ (HostOp.debugView s).eqf = (if s.eqf then 1 else 0) ∧
    (HostOp.debugView s).rem = s.rem ∧ (HostOp.debugView s).fcause = s.fcause ∧
    (HostOp.debugView s).fopcode = s.fopcode ∧ (HostOp.debugView s).fpc = s.fpc ∧
    ((HostOp.debugView s).status = 0 ↔ s.status = .running) ∧ ((HostOp.debugView s).status = 1 ↔ s.status = .halted) ∧
    ((HostOp.debugView s).status = 2 ↔ s.status = .faulted)

/-- A STEP that does not run past the end does the same whether a byte is appended before it or after it: STEP commutes
with the effect of ADD_BYTE, and if ADD_BYTE is not refused before the STEP, it has that effect there and after it. So
loading while executing comes to the same as loading first. R50, R53, R110, and R43 for ADD_BYTE. The causes 2 and 3 of
running past the end are numbered by the spec's decision D8 (R180, log entry 12); that ADD_BYTE is refused at capacity
and allowed in every status is D22 (log entry 13). -/
def Obligations.AddByteCommutesWithStep : Prop :=
  ∀ (b : Byte) (s t : State), step s = .next t → (s.status = .running → t.fcause ≠ 2 ∧ t.fcause ≠ 3) →
    step (s.setProg (s.prog.append b)) = .next (t.setProg (t.prog.append b)) ∧
    (∀ s', HostOp.addByte b s = .next s' →
      s' = s.setProg (s.prog.append b) ∧ HostOp.addByte b t = .next (t.setProg (t.prog.append b)))

/-! ### RUN -/

/-- RUN, when it ends, ends in one state, which is terminal, and a RUN begun there ends there at once: nothing changes.
R108, R102, the idempotence property S8; the terminal states are the spec's decision D6. -/
def Obligations.RunEndsInOneTerminalState : Prop :=
  ∀ s t : State, RunTo s t →
    (t.status = .halted ∨ t.status = .faulted) ∧ (∀ u, RunTo s u → u = t) ∧ (∀ u, RunTo t u ↔ u = t)

/-- RUN under fuel computes RUN: with enough fuel it answers the state in which RUN ends, and it answers nothing else
(R108, R225; assumption 8). -/
def Obligations.FuelledRunComputesRun : Prop :=
  ∀ s t : State, RunTo s t ↔ ∃ n, HostOp.runFuel n s = some t

/-- A RUN that meets a JMPB at `pc` with distance 2 never ends: there is no step limit. R108, R142; that there is none
is the spec's decision D25. -/
def Obligations.JmpbBackToItselfRunsForEver : Prop :=
  ∀ (s : State) (r : Fin 32), s.status = .running → u32 s.pc + 2 ≤ 2 ^ 31 → BytesAtPc s [0x09, regByte r] →
    s32 (s.reg r) = 2 → step s = .next s ∧ ¬∃ t, RunTo s t

/-! ### The assembler -/

/-- What the assembler emits for a line is a well-formed instruction that is not ILLEGAL: no register byte of 32 or
more, and a spare byte 0. R76, R80, R81, R83, R172; the spare byte's value is the spec's decision D26. -/
def Obligations.AssembledLineIsWellFormed : Prop :=
  ∀ (toks : List (List Char)) (i : Instr), Assembler.instruction toks = .ok i →
    i.wf = true ∧ (∀ b, i ≠ .illegal b) ∧
      (isComparison i = true → ∃ op b1 b2, encode i = [op, b1, b2, 0x00])

/-- Every instruction the assembler may emit, it does emit for some line: for each well-formed instruction that is not
ILLEGAL, a comparison with spare byte 0, there is a line whose tokens are read as it, and the source text that is this
one line assembles to its encoding (R74 to R78, R80 to R82). The spelling of the mnemonics is the spec's decision D2,
the spare byte D26 (log entries 20 and 10). -/
def Obligations.EveryInstructionHasALine : Prop :=
  ∀ i : Instr, i.wf = true → (∀ b, i ≠ .illegal b) →
    (isComparison i = true → ∃ op b1 b2, encode i = [op, b1, b2, 0x00]) →
    ∃ line : List Char, '\n' ∉ line ∧ Assembler.instruction (Assembler.tokens line) = .ok i ∧
      Assembler.assemble line = .bytes (encode i)

/-- A source text assembles to bytes exactly if every line of it that is not blank is read as an instruction, and then
the bytes are the encodings of those instructions in the order of their lines, end to end: nothing before the first,
between them or after the last, and no bytes at all if one line fails. Each of those instructions is well formed and
none is ILLEGAL. R74, R82; that each is well formed and none is ILLEGAL, R76, R80, R172. Which characters are blank is
the model's, log entry 18; the mnemonics' spelling is the spec's decision D2 (log entry 20). -/
def Obligations.AssembledProgramIsItsInstructionsEndToEnd : Prop :=
  ∀ src : List Char,
    (∀ bs : List Byte, Assembler.assemble src = .bytes bs ↔
      ∃ is : List Instr,
        (((Assembler.lines src).map Assembler.tokens).filter (fun toks => toks ≠ [])).map Assembler.instruction =
          is.map Except.ok ∧
        bs = (is.map encode).flatten) ∧
    (∀ is : List Instr,
      (((Assembler.lines src).map Assembler.tokens).filter (fun toks => toks ≠ [])).map Assembler.instruction =
        is.map Except.ok →
      ∀ i ∈ is, i.wf = true ∧ ∀ b, i ≠ .illegal b)

end
end

