-- ==== Sys2Proof/Laws/Assembler.lean ====
section
/-! SUPPORT. The assembler: how a text is cut into lines and tokens, and what one more line does to an assembly. -/

namespace Sys2Proof.Assembler

theorem cutAt_ne_nil (p : Char → Bool) : ∀ cs, cutAt p cs ≠ []
  | [] => by simp [cutAt]
  | c :: cs => by
    unfold cutAt
    split
    · simp
    · split <;> simp

/-- A text with no character to cut at is one piece. -/
theorem cutAt_of_forall_not {p : Char → Bool} : ∀ {w : List Char}, (∀ c ∈ w, p c = false) → cutAt p w = [w]
  | [], _ => rfl
  | c :: cs, h => by
    rw [cutAt, cutAt_of_forall_not fun d hd => h d (List.mem_cons_of_mem c hd)]
    simp [h c List.mem_cons_self]

/-- A piece with no character to cut at, then one, is the first piece of the whole. -/
theorem cutAt_append_cons {p : Char → Bool} {d : Char} (hd : p d = true) (cs : List Char) :
    ∀ {w : List Char}, (∀ c ∈ w, p c = false) → cutAt p (w ++ d :: cs) = w :: cutAt p cs
  | [], _ => by
    obtain ⟨w, ws, h⟩ := List.exists_cons_of_ne_nil (cutAt_ne_nil p cs)
    simp [cutAt, h, hd]
  | c :: w, h => by
    rw [List.cons_append, cutAt, cutAt_append_cons hd cs fun e he => h e (List.mem_cons_of_mem c he)]
    simp [h c List.mem_cons_self]

/-- A text with no line feed is one line. -/
theorem lines_of_not_mem {line : List Char} (h : '\n' ∉ line) : lines line = [line] :=
  cutAt_of_forall_not fun _ hc => decide_eq_false fun e => h (e ▸ hc)

/-- A word that is a token as it stands: not empty, no whitespace in it, no letter that lowercasing changes. -/
def IsToken (w : List Char) : Prop := w ≠ [] ∧ ∀ c ∈ w, isSpace c = false ∧ c.toLower = c

theorem IsToken.map_toLower {w : List Char} (h : IsToken w) : w.map Char.toLower = w :=
  (List.map_congr_left fun c hc => (h.2 c hc).2).trans (List.map_id w)

/-- A token alone on its line. -/
theorem tokens_of_isToken {w : List Char} (h : IsToken w) : tokens w = [w] := by
  rw [tokens, h.map_toLower, cutAt_of_forall_not fun c hc => (h.2 c hc).1]
  simp [h.1]

/-- A token, a space, and more. -/
theorem tokens_append_space {w : List Char} (h : IsToken w) (cs : List Char) :
    tokens (w ++ ' ' :: cs) = w :: tokens cs := by
  rw [tokens, List.map_append, h.map_toLower, List.map_cons, show Char.toLower ' ' = ' ' by decide,
    cutAt_append_cons (by decide) _ fun c hc => (h.2 c hc).1]
  simp [h.1, tokens]

/-- A token holds no line feed. -/
theorem IsToken.newline_not_mem {w : List Char} (h : IsToken w) : '\n' ∉ w := fun hm =>
  absurd (h.2 _ hm).1 (by decide)

/-! ### One more line -/

theorem assembleFrom_blank {l : List Char} (h : tokens l = []) (n : Nat) (ls : List (List Char)) :
    assembleFrom n (l :: ls) = assembleFrom (n + 1) ls := by
  simp [assembleFrom, h]

theorem assembleFrom_ok {l : List Char} {i : Instr} (h : tokens l ≠ []) (hi : instruction (tokens l) = .ok i) (n : Nat)
    (ls : List (List Char)) : assembleFrom n (l :: ls) =
      (encode i ++ (assembleFrom (n + 1) ls).1, (assembleFrom (n + 1) ls).2) := by
  obtain ⟨t, ts, ht⟩ := List.exists_cons_of_ne_nil h
  rw [ht] at hi
  simp [assembleFrom, ht, hi]

theorem assembleFrom_error {l : List Char} {e : LineError} (h : tokens l ≠ [])
    (he : instruction (tokens l) = .error e) (n : Nat) (ls : List (List Char)) : assembleFrom n (l :: ls) =
      ((assembleFrom (n + 1) ls).1, ⟨n, l, e⟩ :: (assembleFrom (n + 1) ls).2) := by
  obtain ⟨t, ts, ht⟩ := List.exists_cons_of_ne_nil h
  rw [ht] at he
  simp [assembleFrom, ht, he]

/-- An assembly answers bytes exactly if no line is reported. -/
theorem assemble_eq_bytes {src : List Char} {bs : List Byte} :
    assemble src = .bytes bs ↔ assembleFrom 1 (lines src) = (bs, []) := by
  unfold assemble
  split
  · rename_i bs' h; rw [h]; simp
  · rename_i h; rw [h]; simp

end Sys2Proof.Assembler
end

