-- ==== Sys2Proof/Laws/Decode.lean ====
section
/-! SUPPORT. The decoder's small lemmas: the byte order of the immediate, and the operand readers. -/

namespace Sys2Proof

/-- Splitting an immediate and joining its bytes gives it back (R44, R80). -/
@[simp] theorem be16_hi8_lo8 (v : Half) : be16 (hi8 v) (lo8 v) = v := by
  apply BitVec.eq_of_getLsbD_eq
  intro i hi
  simp only [be16, hi8, lo8, BitVec.getLsbD_append, BitVec.getLsbD_extractLsb']
  by_cases h : i < 8
  · simp [h]
  · simp [h, show i - 8 < 8 by omega, show 8 + (i - 8) = i by omega]

@[simp] theorem hi8_be16 (hi lo : Byte) : hi8 (be16 hi lo) = hi := by
  apply BitVec.eq_of_getLsbD_eq
  intro i h
  simp only [be16, hi8, BitVec.getLsbD_extractLsb', BitVec.getLsbD_append]
  simp [h]

@[simp] theorem lo8_be16 (hi lo : Byte) : lo8 (be16 hi lo) = lo := by
  apply BitVec.eq_of_getLsbD_eq
  intro i h
  simp only [be16, lo8, BitVec.getLsbD_extractLsb', BitVec.getLsbD_append]
  simp [h]

/-- The value of the immediate: the byte at the lower address counts 256 (R44). -/
theorem toNat_be16 (hi lo : Byte) : (be16 hi lo).toNat = hi.toNat * 256 + lo.toNat := by
  have := lo.isLt
  simp only [be16, BitVec.toNat_append]
  rw [Nat.shiftLeft_eq, ← Nat.shiftLeft_eq, ← Nat.shiftLeft_add_eq_or_of_lt (by simpa using this), Nat.shiftLeft_eq]

/-- What a three-byte operand reader answers when it answers an instruction. -/
theorem operands3_ok {mk : Byte → Byte → Byte → Instr} {op : Byte} {bs rest : List Byte} {i : Instr}
    (h : operands3 mk op bs = .ok i rest) : ∃ b1 b2 b3, bs = b1 :: b2 :: b3 :: rest ∧ i = mk b1 b2 b3 := by
  match bs with
  | [] | [_] | [_, _] => simp [operands3] at h
  | b1 :: b2 :: b3 :: r =>
    simp only [operands3, DecodeResult.ok.injEq] at h
    exact ⟨b1, b2, b3, by simp [h.2], h.1.symm⟩

/-- What a one-byte operand reader answers when it answers an instruction. -/
theorem operandsR_ok {mk : Byte → Instr} {op : Byte} {bs rest : List Byte} {i : Instr}
    (h : operandsR mk op bs = .ok i rest) : ∃ b1, bs = b1 :: rest ∧ i = mk b1 := by
  match bs with
  | [] => simp [operandsR] at h
  | b1 :: r =>
    simp only [operandsR, DecodeResult.ok.injEq] at h
    exact ⟨b1, by simp [h.2], h.1.symm⟩

/-- What LOAD's operand reader answers when it answers an instruction. -/
theorem operandsRI_ok {mk : Byte → Half → Instr} {op : Byte} {bs rest : List Byte} {i : Instr}
    (h : operandsRI mk op bs = .ok i rest) : ∃ b1 b2 b3, bs = b1 :: b2 :: b3 :: rest ∧ i = mk b1 (be16 b2 b3) := by
  match bs with
  | [] | [_] | [_, _] => simp [operandsRI] at h
  | b1 :: b2 :: b3 :: r =>
    simp only [operandsRI, DecodeResult.ok.injEq] at h
    exact ⟨b1, b2, b3, by simp [h.2], h.1.symm⟩

/-- A byte that is no opcode decodes to ILLEGAL and takes no operand (R67, R71). -/
theorem decode_illegal {b : Byte} (h : illegalOpcode b = true) (rest : List Byte) :
    decode (b :: rest) = .ok (.illegal b) rest := by
  simp only [illegalOpcode, decide_eq_true_eq] at h
  unfold decode
  dsimp only
  split <;> first | rfl | omega

end Sys2Proof
end

