-- ==== Sys2Proof/Laws/State.lean ====
section
/-! SUPPORT. What each update of the state does to each field, so that no later proof unfolds a record update. -/

namespace Sys2Proof.Machine

variable (s : State)

/-! ### `State.setReg` -/

@[simp] theorem State.setReg_x (i : Fin 32) (v : Word) : (s.setReg i v).x = s.x.set i v := rfl
@[simp] theorem State.setReg_pc (i : Fin 32) (v : Word) : (s.setReg i v).pc = s.pc := rfl
@[simp] theorem State.setReg_eqf (i : Fin 32) (v : Word) : (s.setReg i v).eqf = s.eqf := rfl
@[simp] theorem State.setReg_rem (i : Fin 32) (v : Word) : (s.setReg i v).rem = s.rem := rfl
@[simp] theorem State.setReg_status (i : Fin 32) (v : Word) : (s.setReg i v).status = s.status := rfl
@[simp] theorem State.setReg_fcause (i : Fin 32) (v : Word) : (s.setReg i v).fcause = s.fcause := rfl
@[simp] theorem State.setReg_fopcode (i : Fin 32) (v : Word) : (s.setReg i v).fopcode = s.fopcode := rfl
@[simp] theorem State.setReg_fpc (i : Fin 32) (v : Word) : (s.setReg i v).fpc = s.fpc := rfl
@[simp] theorem State.setReg_prog (i : Fin 32) (v : Word) : (s.setReg i v).prog = s.prog := rfl
@[simp] theorem State.setReg_len (i : Fin 32) (v : Word) : (s.setReg i v).len = s.len := rfl

/-- The register written holds the value. -/
@[simp] theorem State.setReg_reg_same (i : Fin 32) (v : Word) : (s.setReg i v).reg i = v := by
  simp [State.reg, State.setReg]

/-- Every other register holds what it held. -/
theorem State.setReg_reg_ne {i j : Fin 32} (v : Word) (h : j ≠ i) : (s.setReg i v).reg j = s.reg j := by
  have : i.val ≠ j.val := fun e => h (Fin.ext e.symm)
  simp [State.reg, State.setReg, Vector.getElem_set_ne _ _ this]

/-! ### `State.setPc` -/

@[simp] theorem State.setPc_x (t : Word) : (s.setPc t).x = s.x := rfl
@[simp] theorem State.setPc_pc (t : Word) : (s.setPc t).pc = t := rfl
@[simp] theorem State.setPc_eqf (t : Word) : (s.setPc t).eqf = s.eqf := rfl
@[simp] theorem State.setPc_rem (t : Word) : (s.setPc t).rem = s.rem := rfl
@[simp] theorem State.setPc_status (t : Word) : (s.setPc t).status = s.status := rfl
@[simp] theorem State.setPc_fcause (t : Word) : (s.setPc t).fcause = s.fcause := rfl
@[simp] theorem State.setPc_fopcode (t : Word) : (s.setPc t).fopcode = s.fopcode := rfl
@[simp] theorem State.setPc_fpc (t : Word) : (s.setPc t).fpc = s.fpc := rfl
@[simp] theorem State.setPc_prog (t : Word) : (s.setPc t).prog = s.prog := rfl
@[simp] theorem State.setPc_reg (t : Word) (j : Fin 32) : (s.setPc t).reg j = s.reg j := rfl
@[simp] theorem State.setPc_len (t : Word) : (s.setPc t).len = s.len := rfl

/-! ### `State.advance` -/

@[simp] theorem State.advance_x (n : Nat) : (s.advance n).x = s.x := rfl
@[simp] theorem State.advance_pc (n : Nat) : (s.advance n).pc = s.pc + BitVec.ofNat 32 n := rfl
@[simp] theorem State.advance_eqf (n : Nat) : (s.advance n).eqf = s.eqf := rfl
@[simp] theorem State.advance_rem (n : Nat) : (s.advance n).rem = s.rem := rfl
@[simp] theorem State.advance_status (n : Nat) : (s.advance n).status = s.status := rfl
@[simp] theorem State.advance_fcause (n : Nat) : (s.advance n).fcause = s.fcause := rfl
@[simp] theorem State.advance_fopcode (n : Nat) : (s.advance n).fopcode = s.fopcode := rfl
@[simp] theorem State.advance_fpc (n : Nat) : (s.advance n).fpc = s.fpc := rfl
@[simp] theorem State.advance_prog (n : Nat) : (s.advance n).prog = s.prog := rfl
@[simp] theorem State.advance_reg (n : Nat) (j : Fin 32) : (s.advance n).reg j = s.reg j := rfl
@[simp] theorem State.advance_len (n : Nat) : (s.advance n).len = s.len := rfl

/-! ### `State.setEqf` -/

@[simp] theorem State.setEqf_x (b : Bool) : (s.setEqf b).x = s.x := rfl
@[simp] theorem State.setEqf_pc (b : Bool) : (s.setEqf b).pc = s.pc := rfl
@[simp] theorem State.setEqf_eqf (b : Bool) : (s.setEqf b).eqf = b := rfl
@[simp] theorem State.setEqf_rem (b : Bool) : (s.setEqf b).rem = s.rem := rfl
@[simp] theorem State.setEqf_status (b : Bool) : (s.setEqf b).status = s.status := rfl
@[simp] theorem State.setEqf_fcause (b : Bool) : (s.setEqf b).fcause = s.fcause := rfl
@[simp] theorem State.setEqf_fopcode (b : Bool) : (s.setEqf b).fopcode = s.fopcode := rfl
@[simp] theorem State.setEqf_fpc (b : Bool) : (s.setEqf b).fpc = s.fpc := rfl
@[simp] theorem State.setEqf_prog (b : Bool) : (s.setEqf b).prog = s.prog := rfl
@[simp] theorem State.setEqf_reg (b : Bool) (j : Fin 32) : (s.setEqf b).reg j = s.reg j := rfl
@[simp] theorem State.setEqf_len (b : Bool) : (s.setEqf b).len = s.len := rfl

/-! ### `State.setRem` -/

@[simp] theorem State.setRem_x (v : Word) : (s.setRem v).x = s.x := rfl
@[simp] theorem State.setRem_pc (v : Word) : (s.setRem v).pc = s.pc := rfl
@[simp] theorem State.setRem_eqf (v : Word) : (s.setRem v).eqf = s.eqf := rfl
@[simp] theorem State.setRem_rem (v : Word) : (s.setRem v).rem = v := rfl
@[simp] theorem State.setRem_status (v : Word) : (s.setRem v).status = s.status := rfl
@[simp] theorem State.setRem_fcause (v : Word) : (s.setRem v).fcause = s.fcause := rfl
@[simp] theorem State.setRem_fopcode (v : Word) : (s.setRem v).fopcode = s.fopcode := rfl
@[simp] theorem State.setRem_fpc (v : Word) : (s.setRem v).fpc = s.fpc := rfl
@[simp] theorem State.setRem_prog (v : Word) : (s.setRem v).prog = s.prog := rfl
@[simp] theorem State.setRem_reg (v : Word) (j : Fin 32) : (s.setRem v).reg j = s.reg j := rfl
@[simp] theorem State.setRem_len (v : Word) : (s.setRem v).len = s.len := rfl

/-! ### `State.halt` -/

@[simp] theorem State.halt_x : (s.halt).x = s.x := rfl
@[simp] theorem State.halt_pc : (s.halt).pc = s.pc := rfl
@[simp] theorem State.halt_eqf : (s.halt).eqf = s.eqf := rfl
@[simp] theorem State.halt_rem : (s.halt).rem = s.rem := rfl
@[simp] theorem State.halt_status : (s.halt).status = .halted := rfl
@[simp] theorem State.halt_fcause : (s.halt).fcause = s.fcause := rfl
@[simp] theorem State.halt_fopcode : (s.halt).fopcode = s.fopcode := rfl
@[simp] theorem State.halt_fpc : (s.halt).fpc = s.fpc := rfl
@[simp] theorem State.halt_prog : (s.halt).prog = s.prog := rfl
@[simp] theorem State.halt_reg (j : Fin 32) : (s.halt).reg j = s.reg j := rfl
@[simp] theorem State.halt_len : (s.halt).len = s.len := rfl

/-! ### `State.enterFault` -/

@[simp] theorem State.enterFault_x (c : Cause) (op : Byte) (ipc : Word) : (s.enterFault c op ipc).x = s.x := rfl
@[simp] theorem State.enterFault_pc (c : Cause) (op : Byte) (ipc : Word) : (s.enterFault c op ipc).pc = s.pc := rfl
@[simp] theorem State.enterFault_eqf (c : Cause) (op : Byte) (ipc : Word) : (s.enterFault c op ipc).eqf = s.eqf := rfl
@[simp] theorem State.enterFault_rem (c : Cause) (op : Byte) (ipc : Word) : (s.enterFault c op ipc).rem = s.rem := rfl
@[simp] theorem State.enterFault_status (c : Cause) (op : Byte) (ipc : Word) : (s.enterFault c op ipc).status = .faulted := rfl
@[simp] theorem State.enterFault_fcause (c : Cause) (op : Byte) (ipc : Word) : (s.enterFault c op ipc).fcause = c.code := rfl
@[simp] theorem State.enterFault_fopcode (c : Cause) (op : Byte) (ipc : Word) : (s.enterFault c op ipc).fopcode = op := rfl
@[simp] theorem State.enterFault_fpc (c : Cause) (op : Byte) (ipc : Word) : (s.enterFault c op ipc).fpc = ipc := rfl
@[simp] theorem State.enterFault_prog (c : Cause) (op : Byte) (ipc : Word) : (s.enterFault c op ipc).prog = s.prog := rfl
@[simp] theorem State.enterFault_reg (c : Cause) (op : Byte) (ipc : Word) (j : Fin 32) : (s.enterFault c op ipc).reg j = s.reg j := rfl
@[simp] theorem State.enterFault_len (c : Cause) (op : Byte) (ipc : Word) : (s.enterFault c op ipc).len = s.len := rfl

/-! ### `State.setProg` -/

@[simp] theorem State.setProg_x (m : Memory) : (s.setProg m).x = s.x := rfl
@[simp] theorem State.setProg_pc (m : Memory) : (s.setProg m).pc = s.pc := rfl
@[simp] theorem State.setProg_eqf (m : Memory) : (s.setProg m).eqf = s.eqf := rfl
@[simp] theorem State.setProg_rem (m : Memory) : (s.setProg m).rem = s.rem := rfl
@[simp] theorem State.setProg_status (m : Memory) : (s.setProg m).status = s.status := rfl
@[simp] theorem State.setProg_fcause (m : Memory) : (s.setProg m).fcause = s.fcause := rfl
@[simp] theorem State.setProg_fopcode (m : Memory) : (s.setProg m).fopcode = s.fopcode := rfl
@[simp] theorem State.setProg_fpc (m : Memory) : (s.setProg m).fpc = s.fpc := rfl
@[simp] theorem State.setProg_prog (m : Memory) : (s.setProg m).prog = m := rfl
@[simp] theorem State.setProg_reg (m : Memory) (j : Fin 32) : (s.setProg m).reg j = s.reg j := rfl
@[simp] theorem State.setProg_len (m : Memory) : (s.setProg m).len = m.len := rfl

/-! ### `State.withFetchWord` -/

@[simp] theorem State.withFetchWord_x (nbits w : Nat) : (s.withFetchWord nbits w).x = s.x := rfl
@[simp] theorem State.withFetchWord_pc (nbits w : Nat) : (s.withFetchWord nbits w).pc = s.pc := rfl
@[simp] theorem State.withFetchWord_eqf (nbits w : Nat) : (s.withFetchWord nbits w).eqf = s.eqf := rfl
@[simp] theorem State.withFetchWord_rem (nbits w : Nat) : (s.withFetchWord nbits w).rem = s.rem := rfl
@[simp] theorem State.withFetchWord_status (nbits w : Nat) : (s.withFetchWord nbits w).status = .running := rfl
@[simp] theorem State.withFetchWord_fcause (nbits w : Nat) : (s.withFetchWord nbits w).fcause = s.fcause := rfl
@[simp] theorem State.withFetchWord_fopcode (nbits w : Nat) : (s.withFetchWord nbits w).fopcode = s.fopcode := rfl
@[simp] theorem State.withFetchWord_fpc (nbits w : Nat) : (s.withFetchWord nbits w).fpc = s.fpc := rfl
@[simp] theorem State.withFetchWord_prog (nbits w : Nat) : (s.withFetchWord nbits w).prog = s.prog.overlay (u32 s.pc) (tableWordBytes nbits w) := rfl
@[simp] theorem State.withFetchWord_reg (nbits w : Nat) (j : Fin 32) : (s.withFetchWord nbits w).reg j = s.reg j := rfl
@[simp] theorem State.withFetchWord_len (nbits w : Nat) : (s.withFetchWord nbits w).len = (s.prog.overlay (u32 s.pc) (tableWordBytes nbits w)).len := rfl

/-! ### `State.reset` -/

@[simp] theorem State.reset_reg (j : Fin 32) : State.reset.reg j = 0 := by
  simp [State.reset, State.reg]

/-- Two states with the same fields are the same state; the registers one by one. -/
theorem State.ext_fields {s t : State} (x : ∀ j, s.reg j = t.reg j) (pc : s.pc = t.pc) (eqf : s.eqf = t.eqf)
    (rem : s.rem = t.rem) (status : s.status = t.status) (fcause : s.fcause = t.fcause) (fopcode : s.fopcode = t.fopcode)
    (fpc : s.fpc = t.fpc) (prog : s.prog = t.prog) : s = t := by
  obtain ⟨sx, _, _, _, _, _, _, _, _⟩ := s
  obtain ⟨tx, _, _, _, _, _, _, _, _⟩ := t
  have hx : sx = tx := Vector.ext fun j hj => x ⟨j, hj⟩
  simp_all

end Sys2Proof.Machine
end

