-- ==== Sys2Proof/Laws/Operands.lean ====
section
/-! SUPPORT. Register bytes and jump operands: the accessors' small lemmas, and one inversion lemma for each. -/

namespace Sys2Proof.Machine

@[simp] theorem toNat_regByte (i : Fin 32) : (regByte i).toNat = i.val := by
  simp only [regByte, BitVec.toNat_ofNat]
  exact Nat.mod_eq_of_lt (by omega)

@[simp] theorem reg?_regByte (i : Fin 32) : reg? (regByte i) = some i := by
  simp [reg?]

/-- A byte that names no register selects none (R22, R184). -/
theorem reg?_of_badReg {b : Byte} (h : badReg b) : reg? b = none := by
  simp only [badReg] at h
  simp [reg?, h]

/-- A byte either names no register or is some register's byte. -/
theorem badReg_or_regByte (b : Byte) : badReg b ∨ ∃ i, b = regByte i := by
  by_cases h : 32 ≤ b.toNat
  · exact .inl h
  · exact .inr ⟨⟨b.toNat, by omega⟩, BitVec.eq_of_toNat_eq (by simp)⟩

theorem not_badReg_regByte (i : Fin 32) : ¬badReg (regByte i) := by
  simp [badReg]

@[simp] theorem regOk_regByte (i : Fin 32) : regOk (regByte i) = true := by
  simp [regOk]

variable {op : Byte} {ipc : Word} {s t : State}

/-- A good register byte: go on with its register. -/
@[simp] theorem withReg_regByte (i : Fin 32) (k : Fin 32 → Result) : withReg op ipc (regByte i) s k = k i := by
  simp [withReg]

/-- A bad register byte: REG_INDEX (R184). -/
theorem withReg_of_badReg {b : Byte} (h : badReg b) (k : Fin 32 → Result) :
    withReg op ipc b s k = raise .regIndex op ipc s := by
  simp [withReg, reg?_of_badReg h]

/-- Everything the check of one register byte can do. -/
theorem withReg_next {b : Byte} {k : Fin 32 → Result} (h : withReg op ipc b s k = .next t) :
    (badReg b ∧ t = s.enterFault .regIndex op ipc) ∨ ∃ i, b = regByte i ∧ k i = .next t := by
  obtain hb | ⟨i, rfl⟩ := badReg_or_regByte b
  · rw [withReg_of_badReg hb] at h
    exact .inl ⟨hb, by simpa [raise] using h.symm⟩
  · exact .inr ⟨i, rfl, by simpa using h⟩

/-- Everything the check of two register bytes can do. -/
theorem withReg2_next {b1 b2 : Byte} {k : Fin 32 → Fin 32 → Result} (h : withReg2 op ipc b1 b2 s k = .next t) :
    ((badReg b1 ∨ badReg b2) ∧ t = s.enterFault .regIndex op ipc) ∨
      ∃ i j, b1 = regByte i ∧ b2 = regByte j ∧ k i j = .next t := by
  obtain ⟨hb, ht⟩ | ⟨i, hi, h1⟩ := withReg_next h
  · exact .inl ⟨.inl hb, ht⟩
  obtain ⟨hb, ht⟩ | ⟨j, hj, h2⟩ := withReg_next h1
  · exact .inl ⟨.inr hb, ht⟩
  · exact .inr ⟨i, j, hi, hj, h2⟩

/-- Everything the check of three register bytes can do. -/
theorem withReg3_next {b1 b2 b3 : Byte} {k : Fin 32 → Fin 32 → Fin 32 → Result}
    (h : withReg3 op ipc b1 b2 b3 s k = .next t) :
    ((badReg b1 ∨ badReg b2 ∨ badReg b3) ∧ t = s.enterFault .regIndex op ipc) ∨
      ∃ i j d, b1 = regByte i ∧ b2 = regByte j ∧ b3 = regByte d ∧ k i j d = .next t := by
  obtain ⟨hb, ht⟩ | ⟨i, hi, h1⟩ := withReg_next h
  · exact .inl ⟨.inl hb, ht⟩
  obtain ⟨hb, ht⟩ | ⟨j, d, hj, hd, h2⟩ := withReg2_next (k := k i) h1
  · exact .inl ⟨.inr hb, ht⟩
  · exact .inr ⟨i, j, d, hi, hj, hd, h2⟩

/-- Everything the check of a jump's register can do (R143). -/
theorem withJumpOperand_next {r : Fin 32} {k : Nat → Result} (h : withJumpOperand op ipc r s k = .next t) :
    (s32 (s.reg r) < 0 ∧ t = s.enterFault .negJumpOperand op ipc) ∨
      ∃ v : Nat, s32 (s.reg r) = v ∧ k v = .next t := by
  unfold withJumpOperand at h
  split at h
  · exact .inl ⟨‹_›, by simpa [raise] using h.symm⟩
  · exact .inr ⟨_, (Int.toNat_of_nonneg (by omega)).symm, h⟩

/-- A non-negative register's number, as a natural number, is its unsigned reading (R9). -/
theorem toNat_s32 {v : Word} (h : 0 ≤ s32 v) : (s32 v).toNat = u32 v := by
  simp only [s32, u32, BitVec.toInt_eq_toNat_cond] at h ⊢
  split at h
  · rw [if_pos ‹_›, Int.toNat_natCast]
  · omega

/-- A signed reading is below 2^31 (R9). -/
theorem s32_lt (v : Word) : s32 v < 2 ^ 31 := BitVec.toInt_lt

/-- A signed reading is at least -2^31 (R9). -/
theorem le_s32 (v : Word) : -2 ^ 31 ≤ s32 v := BitVec.le_toInt v

/-- `u32(wrap32(n)) = n mod 2^32` (R9). -/
theorem u32_wrap32 (n : Int) : (u32 (wrap32 n) : Int) = n % 2 ^ 32 := by
  simp only [u32, wrap32, BitVec.toNat_ofInt]
  omega

/-- `s32(wrap32(n)) = n` for n in [-2^31, 2^31 - 1] (R9). -/
theorem s32_wrap32 {n : Int} (h1 : -2 ^ 31 ≤ n) (h2 : n < 2 ^ 31) : s32 (wrap32 n) = n := by
  simp only [s32, wrap32, BitVec.toInt_ofInt]
  exact Int.bmod_eq_of_le (by omega) (by omega)

end Sys2Proof.Machine
end

