-- ==== Sys2Proof/Laws/Exec.lean ====
section
/-! SUPPORT. What an instruction can do, said once: every next state of `exec` is one of seven shapes. -/

namespace Sys2Proof.Machine

/-- The shapes of an instruction's effect on the state `s` at the start of its STEP. -/
inductive Effect (i : Instr) (s : State) : State → Prop where
  /-- A fault of the execution or validation phase: `pc` after the instruction, nothing else but the record (R191). -/
  | fault (c : Cause) (hop : c ≠ .pcPastEnd) (hun : c ≠ .operandPastEnd) (hill : c = .illegalOpcode ↔ ∃ b, i = .illegal b) :
      Effect i s ((s.advance i.size).enterFault c i.opcode s.pc)
  /-- LOAD, ADD, SUB, MUL: one register (R22). -/
  | writeReg (d : Fin 32) (v : Word) (hd : destByte i = some (regByte d)) : Effect i s ((s.advance 4).setReg d v)
  /-- A completed DIV: one register and `rem` (R29, R133). -/
  | divide (r1 r2 : Byte) (d : Fin 32) (q r : Word) (hi : i = .div r1 r2 (regByte d)) :
      Effect i s (((s.advance 4).setReg d q).setRem r)
  /-- A comparison: `eqf` (R28). -/
  | writeFlag (b : Bool) (hc : isComparison i = true) : Effect i s ((s.advance 4).setEqf b)
  /-- A jump: `pc` (R140 to R142, R160, R161). -/
  | jump (t : Word) (hs : i.size = 2) : Effect i s (s.setPc t)
  /-- HLT (R170). -/
  | halt (hi : i = .hlt) : Effect i s (s.advance 1).halt

variable {i : Instr} {s t : State}

theorem wrapArith_effect {op : Byte} {f : Int → Int → Int} {r1 r2 r3 : Byte}
    (hd : destByte i = some r3) (ho : i.opcode = op) (hs : i.size = 4) (hni : ∀ b, i ≠ .illegal b)
    (h : wrapArith op f r1 r2 r3 s = .next t) : Effect i s t := by
  obtain ⟨-, rfl⟩ | ⟨a, b, d, -, -, rfl, h1⟩ := withReg3_next h
  · simpa [ho, hs] using Effect.fault (i := i) (s := s) .regIndex (by simp) (by simp) (by simpa using hni)
  · obtain rfl := by simpa using h1.symm
    exact .writeReg d _ hd

theorem compareRegs_effect {op : Byte} {f : Int → Int → Bool} {r1 r2 : Byte}
    (hc : isComparison i = true) (ho : i.opcode = op) (hs : i.size = 4) (hni : ∀ b, i ≠ .illegal b)
    (h : compareRegs op f r1 r2 s = .next t) : Effect i s t := by
  obtain ⟨-, rfl⟩ | ⟨a, b, -, -, h1⟩ := withReg2_next h
  · simpa [ho, hs] using Effect.fault (i := i) (s := s) .regIndex (by simp) (by simp) (by simpa using hni)
  · obtain rfl := by simpa using h1.symm
    exact .writeFlag _ hc

/-- What the register check and the operand check of a jump can do, before the jump's own `k`. -/
theorem jump_effect {op : Byte} {k : Nat → Result}
    (ho : i.opcode = op) (hs : i.size = 2) (hni : ∀ b, i ≠ .illegal b)
    (hk : ∀ v, k v = .next t → Effect i s t) {r : Fin 32}
    (h : withJumpOperand op s.pc r (s.advance 2) k = .next t) : Effect i s t := by
  obtain ⟨-, rfl⟩ | ⟨v, -, h1⟩ := withJumpOperand_next h
  · simpa [ho, hs] using Effect.fault (i := i) (s := s) .negJumpOperand (by simp) (by simp) (by simpa using hni)
  · exact hk v h1

theorem condJump_effect {op : Byte} {taken : Bool} {r : Byte}
    (ho : i.opcode = op) (hs : i.size = 2) (hni : ∀ b, i ≠ .illegal b)
    (h : condJump op taken r s = .next t) : Effect i s t := by
  obtain ⟨-, rfl⟩ | ⟨r, -, h1⟩ := withReg_next h
  · simpa [ho, hs] using Effect.fault (i := i) (s := s) .regIndex (by simp) (by simp) (by simpa using hni)
  cases taken with
  | false =>
    obtain rfl := by simpa using h1.symm
    exact .jump _ hs
  | true =>
    rw [if_pos rfl] at h1
    refine jump_effect ho hs hni (fun v h2 => ?_) h1
    obtain rfl := by simpa using h2.symm
    exact .jump _ hs

theorem execLoad_effect {r : Byte} {imm16 : Half} (h : execLoad r imm16 s = .next t) : Effect (.load r imm16) s t := by
  obtain ⟨-, rfl⟩ | ⟨d, rfl, h1⟩ := withReg_next h
  · exact .fault .regIndex (by simp) (by simp) (by simp)
  · obtain rfl := by simpa using h1.symm
    exact .writeReg d _ rfl

theorem execDiv_effect {r1 r2 r3 : Byte} (h : execDiv r1 r2 r3 s = .next t) : Effect (.div r1 r2 r3) s t := by
  obtain ⟨-, rfl⟩ | ⟨a, b, d, -, -, rfl, h1⟩ := withReg3_next h
  · exact .fault .regIndex (by simp) (by simp) (by simp)
  dsimp only at h1
  split at h1
  · obtain rfl := by simpa [raise] using h1.symm
    exact .fault .divByZero (by simp) (by simp) (by simp)
  split at h1
  · obtain rfl := by simpa [raise] using h1.symm
    exact .fault .divOverflow (by simp) (by simp) (by simp)
  · obtain rfl := by simpa using h1.symm
    exact .divide _ _ d _ _ rfl

theorem execJmp_effect {r : Byte} (h : execJmp r s = .next t) : Effect (.jmp r) s t := by
  obtain ⟨-, rfl⟩ | ⟨d, -, h1⟩ := withReg_next h
  · exact .fault .regIndex (by simp) (by simp) (by simp)
  refine jump_effect rfl rfl (by simp) (fun v h2 => ?_) h1
  obtain rfl := by simpa using h2.symm
  exact .jump _ rfl

theorem execJmpf_effect {r : Byte} (h : execJmpf r s = .next t) : Effect (.jmpf r) s t := by
  obtain ⟨-, rfl⟩ | ⟨d, -, h1⟩ := withReg_next h
  · exact .fault .regIndex (by simp) (by simp) (by simp)
  refine jump_effect rfl rfl (by simp) (fun v h2 => ?_) h1
  obtain rfl := by simpa using h2.symm
  exact .jump _ rfl

theorem execJmpb_effect {r : Byte} (h : execJmpb r s = .next t) : Effect (.jmpb r) s t := by
  obtain ⟨-, rfl⟩ | ⟨d, -, h1⟩ := withReg_next h
  · exact .fault .regIndex (by simp) (by simp) (by simp)
  refine jump_effect rfl rfl (by simp) (fun v h2 => ?_) h1
  split at h2
  · obtain rfl := by simpa [raise] using h2.symm
    exact .fault .pcUnderflow (by simp) (by simp) (by simp)
  · obtain rfl := by simpa using h2.symm
    exact .jump _ rfl

/-- Everything an instruction can do. -/
theorem exec_effect (h : exec i s = .next t) : Effect i s t := by
  cases i with
  | hlt =>
    obtain rfl := by simpa [exec, execHlt] using h.symm
    exact .halt rfl
  | load r imm16 => exact execLoad_effect h
  | add r1 r2 r3 => exact wrapArith_effect rfl rfl rfl (by simp) h
  | sub r1 r2 r3 => exact wrapArith_effect rfl rfl rfl (by simp) h
  | mul r1 r2 r3 => exact wrapArith_effect rfl rfl rfl (by simp) h
  | div r1 r2 r3 => exact execDiv_effect h
  | jmp r => exact execJmp_effect h
  | jmpf r => exact execJmpf_effect h
  | jmpb r => exact execJmpb_effect h
  | eq r1 r2 spare => exact compareRegs_effect rfl rfl rfl (by simp) h
  | neq r1 r2 spare => exact compareRegs_effect rfl rfl rfl (by simp) h
  | gt r1 r2 spare => exact compareRegs_effect rfl rfl rfl (by simp) h
  | lt r1 r2 spare => exact compareRegs_effect rfl rfl rfl (by simp) h
  | gteq r1 r2 spare => exact compareRegs_effect rfl rfl rfl (by simp) h
  | lteq r1 r2 spare => exact compareRegs_effect rfl rfl rfl (by simp) h
  | jeq r => exact condJump_effect rfl rfl (by simp) h
  | jneq r => exact condJump_effect rfl rfl (by simp) h
  | illegal b =>
    obtain rfl := by simpa [exec, execIllegal, raise] using h.symm
    exact .fault .illegalOpcode (by simp) (by simp) (by simp)

/-! ### Results on good register bytes -/

/-- A wrapping operation on three good registers completes (R106, R135). -/
theorem wrapArith_regByte (op : Byte) (f : Int → Int → Int) (a b d : Fin 32) (s : State) :
    wrapArith op f (regByte a) (regByte b) (regByte d) s =
      .next ((s.advance 4).setReg d (wrap32 (f (s32 (s.reg a)) (s32 (s.reg b))))) := by
  simp [wrapArith, withReg3]

/-- A comparison of two good registers completes. -/
theorem compareRegs_regByte (op : Byte) (f : Int → Int → Bool) (a b : Fin 32) (s : State) :
    compareRegs op f (regByte a) (regByte b) s =
      .next ((s.advance 4).setEqf (f (s32 (s.reg a)) (s32 (s.reg b)))) := by
  simp [compareRegs, withReg2]

/-- A jump operand that is not negative is the register's unsigned reading. -/
theorem withJumpOperand_of_nonneg {op : Byte} {ipc : Word} {r : Fin 32} {s : State} (h : 0 ≤ s32 (s.reg r))
    (k : Nat → Result) : withJumpOperand op ipc r s k = k (u32 (s.reg r)) := by
  rw [withJumpOperand, if_neg (by omega), toNat_s32 h]

/-- A negative jump operand raises NEG_JUMP_OPERAND (R143). -/
theorem withJumpOperand_of_neg {op : Byte} {ipc : Word} {r : Fin 32} {s : State} (h : s32 (s.reg r) < 0)
    (k : Nat → Result) : withJumpOperand op ipc r s k = raise .negJumpOperand op ipc s := by
  rw [withJumpOperand, if_pos h]

/-- What `raise` leaves, in the terms of `FaultLeaves`. -/
theorem faults_raise (c : Cause) (op : Byte) (n : Nat) (s : State) :
    Faults (raise c op s.pc (s.advance n)) c.code op (s.pc + BitVec.ofNat 32 n) s :=
  ⟨_, rfl, rfl, rfl, rfl, rfl, rfl, fun _ => rfl, rfl, rfl, rfl, fun _ => rfl⟩

end Sys2Proof.Machine
end

