-- ==== Sys2Proof/Laws/Memory.lean ====
section
/-! SUPPORT. The program memory: every operation keeps the canonical form, and what a read gives after each. -/

namespace Sys2Proof.Machine

theorem Memory.read_nil (a : Nat) : Memory.read [] a = none := rfl

/-- In the canonical form from `n`, address `n + k` reads the `k`-th byte, if there is one. -/
theorem Memory.read_of_wfFrom : ∀ {m : Memory} {n : Nat}, Memory.wfFrom n m = true →
    ∀ a, m.read a = if a < n then none else (m.bytes)[a - n]?
  | [], n, _, a => by simp [Memory.read, Memory.unlisted, Memory.bytes]
  | c :: cs, n, h, a => by
    simp only [Memory.wfFrom, Bool.and_eq_true, decide_eq_true_eq] at h
    have ih := Memory.read_of_wfFrom h.2 a
    simp only [Memory.read, h.1]
    by_cases e : n = a
    · subst e; simp [Memory.bytes]
    · rw [if_neg e, ih]
      by_cases lt : a < n
      · rw [if_pos (by omega), if_pos lt]
      · rw [if_neg (by omega), if_neg lt]
        obtain ⟨k, hk⟩ : ∃ k, a - n = k + 1 := ⟨a - n - 1, by omega⟩
        rw [hk, show a - (n + 1) = k by omega]
        simp [Memory.bytes]

/-- In the canonical form, address `a` reads byte `a` of the program (R40, R56). -/
theorem Memory.read_eq {m : Memory} (h : m.wf = true) (a : Nat) : m.read a = m.bytes[a]? := by
  simpa using Memory.read_of_wfFrom h a

@[simp] theorem Memory.length_bytes (m : Memory) : m.bytes.length = m.len := by
  simp [Memory.bytes, Memory.len]

/-- In the canonical form, an address holds no byte exactly if it is `len` or above (R47, R48). -/
theorem Memory.read_eq_none {m : Memory} (h : m.wf = true) (a : Nat) : m.read a = none ↔ m.len ≤ a := by
  rw [Memory.read_eq h, List.getElem?_eq_none_iff, Memory.length_bytes]

theorem Memory.wfFrom_append {b : Byte} : ∀ {m : Memory} {n : Nat}, Memory.wfFrom n m = true →
    Memory.wfFrom n (m ++ [(n + m.length, b)]) = true
  | [], n, _ => by simp [Memory.wfFrom]
  | c :: cs, n, h => by
    simp only [Memory.wfFrom, Bool.and_eq_true, decide_eq_true_eq, List.cons_append, List.length_cons] at h ⊢
    refine ⟨h.1, ?_⟩
    have := Memory.wfFrom_append (b := b) h.2
    rwa [show n + 1 + cs.length = n + (cs.length + 1) by omega] at this

/-- Appending keeps the canonical form. -/
theorem Memory.append_wf {m : Memory} (h : m.wf = true) (b : Byte) : (m.append b).wf = true := by
  have := Memory.wfFrom_append (b := b) h
  rwa [Nat.zero_add] at this

@[simp] theorem Memory.len_append (m : Memory) (b : Byte) : (m.append b).len = m.len + 1 := by
  simp [Memory.append, Memory.len]

@[simp] theorem Memory.bytes_append (m : Memory) (b : Byte) : (m.append b).bytes = m.bytes ++ [b] := by
  simp [Memory.append, Memory.bytes]

/-- A byte that is there stays, whatever is appended (R42). -/
theorem Memory.read_append_of_some {b v : Byte} : ∀ {m : Memory} {a : Nat}, m.read a = some v →
    (m.append b).read a = some v := by
  intro m a h
  unfold Memory.append
  generalize m.len = k
  induction m with
  | nil => simp [Memory.read, Memory.unlisted] at h
  | cons c cs ih =>
    simp only [Memory.read, List.cons_append] at h ⊢
    by_cases e : c.1 = a
    · rw [if_pos e] at h ⊢; exact h
    · rw [if_neg e] at h ⊢; exact ih h

/-- The appended byte is read at the old `len` (R43). -/
theorem Memory.read_append_len {m : Memory} (h : m.wf = true) (b : Byte) : (m.append b).read m.len = some b := by
  rw [Memory.read_eq (Memory.append_wf h b)]
  simp [← Memory.length_bytes]

theorem Memory.ofBytesFrom_wf : ∀ (bs : List Byte) (n : Nat), Memory.wfFrom n (Memory.ofBytesFrom n bs) = true
  | [], _ => rfl
  | _ :: bs, n => by simp [Memory.ofBytesFrom, Memory.wfFrom, Memory.ofBytesFrom_wf bs (n + 1)]

/-- Any byte sequence is a program (R88). -/
theorem Memory.ofBytes_wf (bs : List Byte) : (Memory.ofBytes bs).wf = true := Memory.ofBytesFrom_wf bs 0

theorem Memory.bytes_ofBytesFrom : ∀ (bs : List Byte) (n : Nat), (Memory.ofBytesFrom n bs).bytes = bs
  | [], _ => rfl
  | b :: bs, n => by
    have := Memory.bytes_ofBytesFrom bs (n + 1)
    simp_all [Memory.ofBytesFrom, Memory.bytes]

@[simp] theorem Memory.bytes_ofBytes (bs : List Byte) : (Memory.ofBytes bs).bytes = bs :=
  Memory.bytes_ofBytesFrom bs 0

/-- Overlaying keeps the canonical form. -/
theorem Memory.overlay_wf (m : Memory) (a : Nat) (bs : List Byte) : (m.overlay a bs).wf = true :=
  Memory.ofBytes_wf _

/-- The overlaid bytes are read back. -/
theorem Memory.read_overlay {m : Memory} {a k : Nat} {bs : List Byte} (h : k < bs.length) :
    (m.overlay a bs).read (a + k) = bs[k]? := by
  rw [Memory.read_eq (Memory.overlay_wf m a bs), Memory.overlay, Memory.bytes_ofBytes]
  have hl : (m.bytes.take a ++ List.replicate (a - m.len) 0).length = a := by
    simp; omega
  rw [List.append_assoc, List.getElem?_append_right (by omega), hl, Nat.add_sub_cancel_left,
    List.getElem?_append_left h]

/-- Two memories in canonical form with the same bytes are the same list. -/
theorem Memory.eq_of_bytes : ∀ {m m' : Memory} {n : Nat}, Memory.wfFrom n m = true → Memory.wfFrom n m' = true →
    m.bytes = m'.bytes → m = m'
  | [], [], _, _, _, _ => rfl
  | [], _ :: _, _, _, _, e => by simp [Memory.bytes] at e
  | _ :: _, [], _, _, _, e => by simp [Memory.bytes] at e
  | c :: cs, d :: ds, n, h, h', e => by
    simp only [Memory.wfFrom, Bool.and_eq_true, decide_eq_true_eq] at h h'
    simp only [Memory.bytes, List.map_cons, List.cons.injEq] at e
    rw [Memory.eq_of_bytes h.2 h'.2 e.2, Prod.ext (h.1.trans h'.1.symm) e.1]

/-- The bytes read on from an address are the program's bytes there, where they exist. -/
theorem Memory.bytesFrom_cons {m : Memory} {a n : Nat} {b : Byte} (h : m.read a = some b) :
    m.bytesFrom a (n + 1) = b :: m.bytesFrom (a + 1) n := by
  simp [Memory.bytesFrom, h]

theorem Memory.bytesFrom_nil {m : Memory} {a n : Nat} (h : m.read a = none) : m.bytesFrom a n = [] := by
  cases n <;> simp [Memory.bytesFrom, h]

/-- `bytesFrom` sees a memory only through reads. -/
theorem Memory.bytesFrom_congr {m m' : Memory} (h : ∀ a, m.read a = m'.read a) :
    ∀ (n a : Nat), m.bytesFrom a n = m'.bytesFrom a n
  | 0, _ => rfl
  | n + 1, a => by simp [Memory.bytesFrom, h a, Memory.bytesFrom_congr h n (a + 1)]

end Sys2Proof.Machine
end

