-- ==== Sys2Proof/Laws/PerInstr.lean ====
section
/-! SUPPORT. The statements made per instruction: encoding and decoding agree. -/

namespace Sys2Proof.Laws.RoundTrip

/-- The bytes of `i`, whatever follows them, decode to `i`, at every value of every operand byte. -/
def Statement (i : Instr) : Prop :=
  i.opcodeWf = true → ∀ rest, decode (encode i ++ rest) = .ok i rest

theorem hlt : Statement .hlt := fun _ _ => rfl

theorem load (r : Byte) (imm16 : Half) : Statement (.load r imm16) := fun _ rest => by
  show DecodeResult.ok (Instr.load r (be16 (hi8 imm16) (lo8 imm16))) rest = _
  rw [be16_hi8_lo8]

theorem add (r1 r2 r3 : Byte) : Statement (.add r1 r2 r3) := fun _ _ => rfl

theorem sub (r1 r2 r3 : Byte) : Statement (.sub r1 r2 r3) := fun _ _ => rfl

theorem mul (r1 r2 r3 : Byte) : Statement (.mul r1 r2 r3) := fun _ _ => rfl

theorem div (r1 r2 r3 : Byte) : Statement (.div r1 r2 r3) := fun _ _ => rfl

theorem jmp (r : Byte) : Statement (.jmp r) := fun _ _ => rfl

theorem jmpf (r : Byte) : Statement (.jmpf r) := fun _ _ => rfl

theorem jmpb (r : Byte) : Statement (.jmpb r) := fun _ _ => rfl

theorem eq (r1 r2 spare : Byte) : Statement (.eq r1 r2 spare) := fun _ _ => rfl

theorem neq (r1 r2 spare : Byte) : Statement (.neq r1 r2 spare) := fun _ _ => rfl

theorem gt (r1 r2 spare : Byte) : Statement (.gt r1 r2 spare) := fun _ _ => rfl

theorem lt (r1 r2 spare : Byte) : Statement (.lt r1 r2 spare) := fun _ _ => rfl

theorem gteq (r1 r2 spare : Byte) : Statement (.gteq r1 r2 spare) := fun _ _ => rfl

theorem lteq (r1 r2 spare : Byte) : Statement (.lteq r1 r2 spare) := fun _ _ => rfl

theorem jeq (r : Byte) : Statement (.jeq r) := fun _ _ => rfl

theorem jneq (r : Byte) : Statement (.jneq r) := fun _ _ => rfl

theorem illegal (b : Byte) : Statement (.illegal b) := fun h rest => decode_illegal h rest

end Sys2Proof.Laws.RoundTrip
end

