-- ==== Sys2Proof/Laws/Step.lean ====
section
/-! SUPPORT. What a fetch finds and what a STEP can do, said once. -/

namespace Sys2Proof.Machine

variable {s t : State} {i : Instr} {rest : List Byte}

/-- Everything a STEP can do (R101). -/
theorem step_cases (h : step s = .next t) :
    (s.status ≠ .running ∧ t = s) ∨
    (s.status = .running ∧ s.fetch = .noOpcode ∧ t = s.enterFault .pcPastEnd 0 s.pc) ∨
    (∃ op n, s.status = .running ∧ s.fetch = .operandPastEnd op n ∧
      t = (s.advance n).enterFault .operandPastEnd op s.pc) ∨
    (∃ i rest, s.status = .running ∧ s.fetch = .ok i rest ∧ exec i s = .next t) := by
  unfold step at h
  split at h
  · rename_i hr
    unfold cycle at h
    split at h
    · exact .inr (.inr (.inr ⟨_, _, hr, ‹_›, h⟩))
    · exact .inr (.inl ⟨hr, ‹_›, by simpa [fetchPastEnd, raise] using h.symm⟩)
    · exact .inr (.inr (.inl ⟨_, _, hr, ‹_›, by simpa [operandPastEnd, raise] using h.symm⟩))
  · rename_i hr
    exact .inl ⟨by simp [hr], by simpa [terminalStep] using h.symm⟩
  · rename_i hr
    exact .inl ⟨by simp [hr], by simpa [terminalStep] using h.symm⟩

/-- The instruction the decoder answers carries the opcode byte it was given. -/
theorem opcode_of_decode {op : Byte} {bs : List Byte} (h : decode (op :: bs) = .ok i rest) : i.opcode = op := by
  unfold decode at h
  dsimp only at h
  split at h
  all_goals first
    | (obtain ⟨_, _, _, _, rfl⟩ := operands3_ok h; apply BitVec.eq_of_toNat_eq; symm; assumption)
    | (obtain ⟨_, _, rfl⟩ := operandsR_ok h; apply BitVec.eq_of_toNat_eq; symm; assumption)
    | (obtain ⟨_, _, _, _, rfl⟩ := operandsRI_ok h; apply BitVec.eq_of_toNat_eq; symm; assumption)
    | (simp only [DecodeResult.ok.injEq] at h; obtain ⟨rfl, -⟩ := h
       first | rfl | (apply BitVec.eq_of_toNat_eq; symm; assumption))

/-- The opcode byte of a truncated instruction is the byte the decoder was given. -/
theorem op_of_decode_truncated {op op' : Byte} {n : Nat} {bs : List Byte}
    (h : decode (op :: bs) = .operandPastEnd op' n) : op' = op := by
  unfold decode at h
  dsimp only at h
  split at h
  all_goals first
    | simp at h
    | (match bs, h with
       | [], h | [_], h | [_, _], h => simp [operands3, operandsR, operandsRI] at h <;> exact h.1.symm
       | _ :: _ :: _ :: _, h => simp [operands3, operandsR, operandsRI] at h)

/-- There is an opcode byte at `pc` exactly if the fetch finds one. -/
theorem fetchBytes_of_some {b : Byte} (h : s.prog.read (u32 s.pc) = some b) :
    s.fetchBytes = b :: s.prog.bytesFrom (u32 s.pc + 1) 3 := Memory.bytesFrom_cons h

theorem fetch_of_none (h : s.prog.read (u32 s.pc) = none) : s.fetch = .noOpcode := by
  rw [State.fetch, State.fetchBytes, Memory.bytesFrom_nil h]
  rfl

/-- The instruction fetched carries the byte at `pc` as its opcode (R103). -/
theorem read_of_fetch_ok (h : s.fetch = .ok i rest) : s.prog.read (u32 s.pc) = some i.opcode := by
  cases hb : s.prog.read (u32 s.pc) with
  | none => simp [fetch_of_none hb] at h
  | some b =>
    rw [State.fetch, fetchBytes_of_some hb] at h
    rw [opcode_of_decode h]

theorem read_of_fetch_truncated {op : Byte} {n : Nat} (h : s.fetch = .operandPastEnd op n) :
    s.prog.read (u32 s.pc) = some op := by
  cases hb : s.prog.read (u32 s.pc) with
  | none => simp [fetch_of_none hb] at h
  | some b =>
    rw [State.fetch, fetchBytes_of_some hb] at h
    rw [op_of_decode_truncated h]

/-- The first bytes a fetch sees are the bytes at `pc`. -/
theorem take_bytesFrom {m : Memory} : ∀ {bs : List Byte} {a n : Nat}, bs.length ≤ n →
    (∀ k, k < bs.length → m.read (a + k) = bs[k]?) → ∃ tail, m.bytesFrom a n = bs ++ tail
  | [], a, n, _, _ => ⟨_, rfl⟩
  | b :: bs, a, 0, hl, _ => by simp at hl
  | b :: bs, a, n + 1, hl, h => by
    have h0 : m.read a = some b := by simpa using h 0 (by simp)
    obtain ⟨tail, ht⟩ := take_bytesFrom (m := m) (bs := bs) (a := a + 1) (n := n) (by simpa using hl) fun k hk => by
      have := h (k + 1) (by simpa using hk)
      rwa [show a + (k + 1) = a + 1 + k by omega, List.getElem?_cons_succ] at this
    exact ⟨tail, by rw [Memory.bytesFrom_cons h0, ht]; rfl⟩

/-- Where the program ends after the bytes at `pc`, a fetch sees just those bytes. -/
theorem bytesFrom_of_end {m : Memory} : ∀ {bs : List Byte} {a n : Nat}, bs.length ≤ n →
    (∀ k, k < bs.length → m.read (a + k) = bs[k]?) → m.read (a + bs.length) = none → m.bytesFrom a n = bs
  | [], a, n, _, _, he => Memory.bytesFrom_nil he
  | b :: bs, a, 0, hl, _, _ => by simp at hl
  | b :: bs, a, n + 1, hl, h, he => by
    have h0 : m.read a = some b := by simpa using h 0 (by simp)
    have ih := bytesFrom_of_end (m := m) (bs := bs) (a := a + 1) (n := n) (by simpa using hl)
      (fun k hk => by
        have := h (k + 1) (by simpa using hk)
        rwa [show a + (k + 1) = a + 1 + k by omega, List.getElem?_cons_succ] at this)
      (by rwa [List.length_cons, show a + (bs.length + 1) = a + 1 + bs.length by omega] at he)
    rw [Memory.bytesFrom_cons h0, ih]

/-- A fetch sees a program only through reads. -/
theorem fetch_congr {s' : State} (hp : s.pc = s'.pc) (h : ∀ a, s.prog.read a = s'.prog.read a) : s.fetch = s'.fetch := by
  simp only [State.fetch, State.fetchBytes, hp, Memory.bytesFrom_congr h]

/-- Fetching looks at `pc` and the program only. -/
@[simp] theorem fetch_setEqf (b : Bool) : (s.setEqf b).fetch = s.fetch := rfl

@[simp] theorem fetch_setRem (v : Word) : (s.setRem v).fetch = s.fetch := rfl

/-- `withFetchWord` places the table word's bytes where the next STEP fetches (assumption 6). -/
theorem fetch_withFetchWord (s : State) {nbits w : Nat} (h : nbits ≤ 32) :
    (s.withFetchWord nbits w).fetch = decode (tableWordBytes nbits w) := by
  have hb : ∀ k, (bytesBE w k).length = k := by
    intro k
    induction k with
    | zero => rfl
    | succ k ih => simp [bytesBE, ih]
  have hl : (tableWordBytes nbits w).length = 4 := by
    simp [tableWordBytes, hb, maxInstrBytes]
    omega
  obtain ⟨tail, ht⟩ := take_bytesFrom (m := (s.withFetchWord nbits w).prog) (bs := tableWordBytes nbits w)
    (a := u32 s.pc) (n := 4) (by omega) fun k hk => Memory.read_overlay hk
  have hlen : ∀ (m : Memory) (n a : Nat), (m.bytesFrom a n).length ≤ n := by
    intro m n
    induction n with
    | zero => simp [Memory.bytesFrom]
    | succ n ih =>
      intro a
      cases hr : m.read a with
      | none => simp [Memory.bytesFrom_nil hr]
      | some b => simpa [Memory.bytesFrom_cons hr] using ih (a + 1)
  have htail : tail = [] := by
    have := hlen (s.withFetchWord nbits w).prog 4 (u32 s.pc)
    rw [ht, List.length_append, hl] at this
    exact List.eq_nil_of_length_eq_zero (by omega)
  rw [State.fetch, State.fetchBytes]
  show decode ((s.withFetchWord nbits w).prog.bytesFrom (u32 s.pc) 4) = _
  rw [ht, htail, List.append_nil]

end Sys2Proof.Machine
end

