-- ==== Sys2Proof/Tests/Slice0.lean ====
section
/-! SUPPORT. The model's own tests. Expected results are the spec's: the test vectors of 95_test_vectors.md (named V-…, S…)
and words written out from the encoding tables. Then, for every obligation with hypotheses, a witness that meets them
(a boundary value for each clause). -/

namespace Sys2Proof.Tests

open Sys2Proof.Machine

/-- The reset state with some registers, `pc` and the program bytes set: the vectors' "Start". -/
def start (pc : Word) (regs : List (Fin 32 × Word)) (bs : List Byte) : State :=
  ((regs.foldl (fun s r => s.setReg r.1 r.2) State.reset).setPc pc).setProg (Memory.ofBytes bs)

/-- The state a STEP leaves, if it leaves one. -/
def stepped (s : State) : Option State :=
  match step s with
  | .next t => some t
  | .fault _ => none
  | .refused _ => none

/-- What a vector looks at after one STEP: some registers, `pc`, `status`, `fcause`. -/
def after (s : State) (rs : List (Fin 32)) : Option (List Word × Word × Status × BitVec 4) :=
  (stepped s).map fun t => (rs.map t.reg, t.pc, t.status, t.fcause)

/-- `eqf` and `pc` after one STEP. -/
def flagAfter (s : State) : Option (Bool × Word × Status) := (stepped s).map fun t => (t.eqf, t.pc, t.status)

theorem step_of_stepped {s t : State} (h : stepped s = some t) : step s = .next t := by
  unfold stepped at h
  split at h <;> simp_all

/-! ### Well-formedness: each check refuses an ill-formed term -/

theorem test_wf_refuses_bad_destination : (Instr.load 32 0).wf = false := by decide

theorem test_wf_refuses_bad_first_source : (Instr.add 255 0 0).wf = false := by decide

theorem test_wf_refuses_bad_second_operand : (Instr.eq 0 32 0).wf = false := by decide

theorem test_wf_refuses_bad_third_operand : (Instr.div 0 0 32).wf = false := by decide

theorem test_wf_refuses_bad_jump_register : (Instr.jneq 37).wf = false := by decide

theorem test_wf_refuses_assigned_opcode_as_illegal : (Instr.illegal 17).wf = false := by decide

theorem test_wf_accepts_any_spare : (Instr.lteq 0 31 255).wf = true := by decide

theorem test_wf_accepts_illegal_6 : (Instr.illegal 6).wf = true := by decide

/-! ### Decoding: a word written out from R61 to R66 for every constructor -/

theorem test_decode_hlt : decode [0b00000000] = .ok .hlt [] := by decide

theorem test_decode_load : decode [0b00000001, 0b00000000, 0b00000001, 0b11110100] = .ok (.load 0 500) [] := by decide

theorem test_decode_add : decode [0b00000010, 0b00000001, 0b00000010, 0b00000011] = .ok (.add 1 2 3) [] := by decide

theorem test_decode_sub : decode [0b00000011, 0b00000001, 0b00000010, 0b00000011] = .ok (.sub 1 2 3) [] := by decide

theorem test_decode_mul : decode [0b00000100, 0b00000001, 0b00000010, 0b00000011] = .ok (.mul 1 2 3) [] := by decide

theorem test_decode_div : decode [0b00000101, 0b00000001, 0b00000010, 0b00000011] = .ok (.div 1 2 3) [] := by decide

theorem test_decode_jmp : decode [0b00000111, 0b00000101, 0x2A] = .ok (.jmp 5) [0x2A] := by decide

theorem test_decode_jmpf : decode [0b00001000, 0b00000111] = .ok (.jmpf 7) [] := by decide

theorem test_decode_jmpb : decode [0b00001001, 0b00011111] = .ok (.jmpb 31) [] := by decide

theorem test_decode_eq : decode [0b00001010, 0b00000000, 0b00000001, 0b11111111] = .ok (.eq 0 1 255) [] := by decide

theorem test_decode_neq : decode [0b00001011, 0b00000000, 0b00000001, 0b00000000] = .ok (.neq 0 1 0) [] := by decide

theorem test_decode_gt : decode [0b00001100, 0b00000000, 0b00000001, 0b00000000] = .ok (.gt 0 1 0) [] := by decide

theorem test_decode_lt : decode [0b00001101, 0b00000000, 0b00000001, 0b00000010] = .ok (.lt 0 1 2) [] := by decide

theorem test_decode_gteq : decode [0b00001110, 0b00000000, 0b00000001, 0b00000000] = .ok (.gteq 0 1 0) [] := by decide

theorem test_decode_lteq : decode [0b00001111, 0b00000000, 0b00000001, 0b00000000] = .ok (.lteq 0 1 0) [] := by decide

theorem test_decode_jeq : decode [0b00010000, 0b00000101] = .ok (.jeq 5) [] := by decide

theorem test_decode_jneq : decode [0b00010001, 0b00000100] = .ok (.jneq 4) [] := by decide

theorem test_decode_illegal : decode [0b00000110, 0x00] = .ok (.illegal 6) [0x00] ∧
    decode [0b00010010] = .ok (.illegal 18) [] ∧ decode [0b11111111] = .ok (.illegal 255) [] := by decide

/-- No bytes, and each format cut short (R104). -/
theorem test_decode_cut_short : decode [] = .noOpcode ∧ decode [0x01] = .operandPastEnd 0x01 1 ∧
    decode [0x01, 0, 1] = .operandPastEnd 0x01 2 ∧ decode [0x05, 0x28, 0] = .operandPastEnd 0x05 3 ∧
    decode [0x07] = .operandPastEnd 0x07 1 := by decide

/-- The table's numbering: B0 is the most significant byte of the word (R8). -/
theorem test_decodeTableWord : decodeTableWord 32 0x05010203 = some (.div 1 2 3) ∧
    decodeTableWord 16 0x1104 = some (.jneq 4) ∧ decodeTableWord 8 0x00 = some .hlt ∧
    decodeTableWord 8 0x80 = some (.illegal 0x80) := by decide

/-- The placed word runs as the first instruction after reset: DIV with zero registers raises DIV_BY_ZERO (R133). -/
theorem test_withFetchWord_div : after (State.reset.withFetchWord 32 0x05010203) [] =
    some ([], 4, .faulted, 5) := by decide

theorem test_withFetchWord_hlt : after (State.reset.withFetchWord 8 0x00) [] = some ([], 1, .halted, 0) := by decide

/-! ### One STEP of each instruction -/

/-- V-LOAD-2. -/
theorem test_load_clears_upper_half : after (start 0 [(31, 0xFFFFFFFF)] [0x01, 0x1F, 0xFF, 0xFF]) [31] =
    some ([0x0000FFFF], 4, .running, 0) := by decide

/-- V-LOAD-6. -/
theorem test_load_truncated_immediate : after (start 0 [] [0x01, 0x00, 0x01]) [0] =
    some ([0], 2, .faulted, 3) := by decide

/-- V-ADD-1. -/
theorem test_add_wraps : after (start 0 [(1, 0x7FFFFFFF), (2, 1)] [0x02, 1, 2, 3]) [3, 1, 2] =
    some ([0x80000000, 0x7FFFFFFF, 1], 4, .running, 0) := by decide

/-- V-ADD-4. -/
theorem test_add_destination_is_both_sources : after (start 0 [(4, 21)] [0x02, 4, 4, 4]) [4] =
    some ([42], 4, .running, 0) := by decide

/-- V-SUB-4. -/
theorem test_sub_first_minus_second : after (start 0 [(1, 3), (2, 10)] [0x03, 1, 2, 3]) [3] =
    some ([0xFFFFFFF9], 4, .running, 0) := by decide

/-- V-SUB-2. -/
theorem test_sub_wraps : after (start 0 [(1, 0x80000000), (2, 1)] [0x03, 1, 2, 3]) [3] =
    some ([0x7FFFFFFF], 4, .running, 0) := by decide

/-- V-MUL-1. -/
theorem test_mul_low_half : after (start 0 [(1, 65535), (2, 65535)] [0x04, 1, 2, 3]) [3] =
    some ([0xFFFE0001], 4, .running, 0) := by decide

/-- V-MUL-5. -/
theorem test_mul_most_negative : after (start 0 [(1, 0x80000000), (2, 0xFFFFFFFF)] [0x04, 1, 2, 3]) [3] =
    some ([0x80000000], 4, .running, 0) := by decide

/-- V-DIV-3: -7 / 2 is -3, remainder -1. -/
theorem test_div_truncates : (stepped (start 0 [(1, 0xFFFFFFF9), (2, 2)] [0x05, 1, 2, 3])).map
    (fun t => (t.reg 3, t.rem, t.pc)) = some (0xFFFFFFFD, 0xFFFFFFFF, 4) := by decide

/-- V-DIV-11. -/
theorem test_div_overflow : (stepped ((start 0 [(1, 0x80000000), (2, 0xFFFFFFFF), (3, 44)] [0x05, 1, 2, 3]).setRem 9)).map
    (fun t => (t.reg 3, t.rem, t.pc, t.fcause, t.fopcode)) = some (44, 9, 4, 6, 0x05) := by decide

/-- V-JMP-4: beyond the end, and not a fault yet. -/
theorem test_jmp_beyond_end : after (start 0 [(0, 1000)] [0x07, 0]) [] = some ([], 1000, .running, 0) := by decide

/-- V-JMP-5. -/
theorem test_jmp_negative : (stepped (start 0 [(0, 0xFFFFFFFF)] [0x07, 0])).map
    (fun t => (t.pc, t.status, t.fcause, t.fopcode, t.fpc)) = some (2, .faulted, 8, 0x07, 0) := by decide

/-- V-JMPF-4. -/
theorem test_jmpf_from_10 : after (start 10 [(7, 100)] [0, 0, 0, 0, 0, 0, 0, 0, 0, 0, 0x08, 0x07]) [] =
    some ([], 112, .running, 0) := by decide

/-- V-JMPF-3. -/
theorem test_jmpf_negative : after (start 0 [(0, 0xFFFFFFFE)] [0x08, 0]) [] = some ([], 2, .faulted, 8) := by decide

/-- S5, V-JMPB-1. -/
theorem test_jmpb_document : after (start 4 [(0, 3)] [6, 0, 0, 0, 9, 0, 0, 0]) [] = some ([], 3, .running, 0) := by decide

/-- V-JMPB-3. -/
theorem test_jmpb_underflow : after (start 0 [(0, 3)] [0x09, 0]) [] = some ([], 2, .faulted, 7) := by decide

/-- V-CMP-7: the spare byte 0xFF is ignored. -/
theorem test_eq_ignores_spare : flagAfter (start 0 [(0, 5), (1, 5)] [0x0A, 0, 1, 0xFF]) =
    some (true, 4, .running) := by decide

/-- V-CMP-9. -/
theorem test_neq_of_itself : flagAfter ((start 0 [] [0x0B, 7, 7, 0]).setEqf true) = some (false, 4, .running) := by decide

/-- V-CMP-6 and V-CMP-10. -/
theorem test_gt_signed : flagAfter (start 0 [(1, 0xFFFFFFFF)] [0x0C, 0, 1, 0]) = some (true, 4, .running) := by decide

theorem test_gt_bad_register : flagAfter ((start 0 [] [0x0C, 0, 0x20, 0]).setEqf true) =
    some (true, 4, .faulted) := by decide

/-- V-CMP-5. -/
theorem test_lt_signed : flagAfter (start 0 [(0, 0x80000000), (1, 0x7FFFFFFF)] [0x0D, 0, 1, 0]) =
    some (true, 4, .running) := by decide

/-- V-CMP-11: the spare byte is no destination. -/
theorem test_lt_spare_is_no_destination : after (start 0 [(0, 1), (1, 2), (2, 99)] [0x0D, 0, 1, 2]) [0, 1, 2] =
    some ([1, 2, 99], 4, .running, 0) := by decide

/-- V-CMP-1 and V-CMP-4. -/
theorem test_gteq_equal : flagAfter (start 0 [(0, 10), (1, 10)] [0x0E, 0, 1, 0]) = some (true, 4, .running) := by decide

theorem test_gteq_signed : flagAfter (start 0 [(0, 0xFFFFFFFF), (1, 1)] [0x0E, 0, 1, 0]) =
    some (false, 4, .running) := by decide

/-- V-CMP-2 and V-CMP-1. -/
theorem test_lteq_greater : flagAfter (start 0 [(0, 12), (1, 10)] [0x0F, 0, 1, 0]) = some (false, 4, .running) := by decide

theorem test_lteq_equal : flagAfter (start 0 [(0, 10), (1, 10)] [0x0F, 0, 1, 0]) = some (true, 4, .running) := by decide

/-- V-JEQ-1. -/
theorem test_jeq_taken : flagAfter ((start 0 [(0, 7)] [0x10, 0]).setEqf true) = some (true, 7, .running) := by decide

/-- V-JEQ-4: not taken, the negative value is not looked at. -/
theorem test_jeq_not_taken : flagAfter (start 0 [(0, 0xFFFFFFFB)] [0x10, 0]) = some (false, 2, .running) := by decide

/-- V-JNEQ-1 and V-JNEQ-2. -/
theorem test_jneq_taken : flagAfter (start 0 [(0, 7)] [0x11, 0]) = some (false, 7, .running) := by decide

theorem test_jneq_not_taken : flagAfter ((start 0 [(0, 7)] [0x11, 0]).setEqf true) = some (true, 2, .running) := by decide

/-- V-HLT-1. -/
theorem test_hlt : after (start 0 [] [0x00]) [] = some ([], 1, .halted, 0) := by decide

/-- V-ILL-4. -/
theorem test_illegal : (stepped (start 4 [] [1, 0, 0, 1, 0x63])).map
    (fun t => (t.pc, t.status, t.fcause, t.fopcode, t.fpc)) = some (5, .faulted, 1, 0x63, 4) := by decide

/-! ### Faults, order, terminal engine -/

/-- V-END-1. -/
theorem test_empty_program : after State.reset [] = some ([], 0, .faulted, 2) := by decide

/-- V-ORD-2: REG_INDEX, not DIV_BY_ZERO. -/
theorem test_order_regIndex_first : after (start 0 [(0, 5)] [0x05, 0, 1, 0x28]) [] = some ([], 4, .faulted, 4) := by decide

/-- V-ORD-1: OPERAND_PAST_END, not REG_INDEX. -/
theorem test_order_pastEnd_first : after (start 0 [] [0x05, 0x28, 0]) [] = some ([], 3, .faulted, 3) := by decide

/-- V-JEQ-5: the register field is checked although the jump would not be taken. -/
theorem test_order_jeq_bad_register : after (start 0 [] [0x10, 0x28]) [] = some ([], 2, .faulted, 4) := by decide

/-- V-HLT-2: the STEP after a HLT changes nothing. -/
theorem test_terminal : stepped ((start 1 [] [0, 1, 0, 0, 5]).halt) = some ((start 1 [] [0, 1, 0, 0, 5]).halt) := by decide

/-! ### The assembler -/

/-- V-ASM-1. -/
theorem test_assemble_load : Assembler.assemble "load $0 #500".toList = .bytes [0x01, 0x00, 0x01, 0xF4] := by decide

/-- V-ASM-2, V-ASM-3, V-ASM-5, V-ASM-7, V-ASM-16 as one source. -/
theorem test_assemble_program :
    Assembler.assemble "LOAD $31 #65535\nload $1 #-1\n\nload $1 #70000\neq $0 $1\n  hlt   ignored".toList =
      .bytes [0x01, 0x1F, 0xFF, 0xFF, 0x01, 0x01, 0xFF, 0xFF, 0x01, 0x01, 0x11, 0x70, 0x0A, 0x00, 0x01, 0x00, 0x00] := by
  decide

/-- V-ASM-11, V-ASM-12, V-ASM-13, V-ASM-14, V-ASM-15: each such line fails, and with it the whole program. -/
theorem test_assemble_fails :
    (match Assembler.assemble "load $32 #1\nhlt\nload $0\nadd $0 $1 #2\nfoo $0\nload 0 #5".toList with
     | .failed rs => rs.map fun r => (r.line, r.error)
     | .bytes _ => []) =
      [(1, .registerIndex), (3, .illegalOperand), (4, .illegalOperand), (5, .opcodeNotRecognized), (6, .illegalOperand)] := by
  decide

/-! ### Witnesses: a state and operands that meet the hypotheses of each obligation -/

theorem witness_DecodeAndEncodeAreInverse_illegal :
    (Instr.illegal 6).opcodeWf = true ∧ (Instr.illegal 18).opcodeWf = true ∧ (Instr.illegal 255).opcodeWf = true ∧
      (Instr.add 255 32 31).opcodeWf = true := by decide

theorem witness_DecodeAndEncodeAreInverse_bytes :
    decode [0x0A, 0xFF, 0x20, 0xFF] = .ok (.eq 255 32 255) [] ∧ decode [0x01, 0x1F, 0x80, 0x00, 0x06] = .ok (.load 31 0x8000) [6] := by
  decide

theorem witness_OpcodeByteDecidesInstructionAndLength : ∃ rest : List Byte, 3 ≤ rest.length := ⟨[0, 0, 0], by decide⟩

theorem witness_StepRunsTheDecodedInstruction : ∃ (s : State) (bs rest : List Byte) (i : Instr), s.status = .running ∧
    BytesAtPc s bs ∧ decode bs = .ok i rest :=
  ⟨start 4 [] [6, 0, 0, 0, 9, 0], [9, 0], [], .jmpb 0, by decide, by unfold BytesAtPc; decide, by decide⟩

theorem witness_TerminalStepChangesNothing : (start 1 [] [0]).halt.status = .halted ∧
    ((start 0 [] []).enterFault .pcPastEnd 0 0).status = .faulted := by decide

theorem witness_FetchPastEndFaults_empty : State.reset.status = .running ∧
    State.reset.prog.read (u32 State.reset.pc) = none := by decide

theorem witness_FetchPastEndFaults_at_len : (start 1 [] [0]).status = .running ∧
    (start 1 [] [0]).prog.read (u32 (start 1 [] [0]).pc) = none := by decide

theorem witness_TruncatedInstructionFaults_load : (start 0 [] [1, 0x28, 0]).status = .running ∧
    3 < (encode (.load 0x28 0)).length ∧ ProgEndsAfter (start 0 [] [1, 0x28, 0]) ((encode (.load 0x28 0)).take 3) := by
  unfold ProgEndsAfter BytesAtPc
  decide

theorem witness_TruncatedInstructionFaults_first_byte : (start 0 [] [1]).status = .running ∧
    1 < (encode (.load 0 0)).length ∧ ProgEndsAfter (start 0 [] [1]) ((encode (.load 0 0)).take 1) := by
  unfold ProgEndsAfter BytesAtPc
  decide

theorem witness_TruncatedInstructionFaults_div : (start 0 [] [5, 0x28, 0]).status = .running ∧
    3 < (encode (.div 0x28 0 0)).length ∧ ProgEndsAfter (start 0 [] [5, 0x28, 0]) ((encode (.div 0x28 0 0)).take 3) := by
  unfold ProgEndsAfter BytesAtPc
  decide

theorem witness_BadRegisterFieldFaults : (0x20 : Byte) ∈ (Instr.div 0 1 0x20).regBytes ∧ badReg 0x20 ∧
    (0xFF : Byte) ∈ (Instr.jeq 0xFF).regBytes ∧ badReg 0xFF := by
  unfold badReg
  decide

/-- A STEP from each kind of state: running on, HLT, a fault, terminal. -/
theorem witness_StepResultIsFalseExactlyAtTheEnd : (∃ t, step (start 0 [] [7, 0]) = .next t) ∧
    (∃ t, step (start 0 [] [0]) = .next t) ∧ (∃ t, step State.reset = .next t) ∧
    (∃ t, step (start 1 [] [0]).halt = .next t) :=
  ⟨⟨_, rfl⟩, ⟨_, rfl⟩, ⟨_, rfl⟩, ⟨_, rfl⟩⟩

theorem witness_LoadZeroExtendsTheImmediate : badReg 0x20 ∧ (start 0 [] [1, 0, 0]).status = .running ∧
    ProgEndsAfter (start 0 [] [1]) [1] ∧ ProgEndsAfter (start 0 [] [1, 0]) [1, 0] ∧
    ProgEndsAfter (start 0 [] [1, 0, 0]) [1, 0, 0] := by
  unfold ProgEndsAfter BytesAtPc badReg
  decide

/-- The least dividend by 1, and by 2, and -1 as a divisor. -/
theorem witness_DivWritesTheTruncatedQuotientAndRemainder :
    (s32 ((start 0 [(0, 0x80000000), (1, 1)] []).reg 1) ≠ 0 ∧ s32 ((start 0 [(0, 0x80000000), (1, 1)] []).reg 1) ≠ -1) ∧
    (s32 ((start 0 [(0, 0x80000001), (1, 0xFFFFFFFF)] []).reg 1) ≠ 0 ∧
      s32 ((start 0 [(0, 0x80000001), (1, 0xFFFFFFFF)] []).reg 0) ≠ -2147483648) := by decide

theorem witness_DivFaultsOnZeroAndOnOverflow : s32 (State.reset.reg 0) = 0 ∧
    s32 ((start 0 [(0, 0x80000000), (1, 0xFFFFFFFF)] []).reg 0) = -2147483648 ∧
    s32 ((start 0 [(0, 0x80000000), (1, 0xFFFFFFFF)] []).reg 1) = -1 := by decide

/-- Registers at 0, at the greatest value and at -1, and `pc` at the edge of the program memory. -/
theorem witness_JmpJumpsToTheRegister : 0 ≤ s32 (State.reset.reg 0) ∧
    0 ≤ s32 ((start 0 [(0, 0x7FFFFFFF)] []).reg 0) ∧ s32 ((start 0 [(0, 0xFFFFFFFF)] []).reg 0) < 0 := by decide

theorem witness_JmpfJumpsForward : u32 (start 0x7FFFFFFE [(0, 0x7FFFFFFF), (1, 0x80000000)] []).pc + 2 ≤ 2147483648 ∧
    0 ≤ s32 ((start 0x7FFFFFFE [(0, 0x7FFFFFFF), (1, 0x80000000)] []).reg 0) ∧
    s32 ((start 0x7FFFFFFE [(0, 0x7FFFFFFF), (1, 0x80000000)] []).reg 1) < 0 := by decide

/-- Distances 0, ipc + 2, ipc + 3 and -1. -/
theorem witness_JmpbJumpsBackward : ∃ s : State, u32 s.pc + 2 ≤ 2147483648 ∧ s32 (s.reg 0) = 0 ∧
    s32 (s.reg 1) = u32 s.pc + 2 ∧ s32 (s.reg 2) > u32 s.pc + 2 ∧ s32 (s.reg 3) < 0 :=
  ⟨start 4 [(1, 6), (2, 7), (3, 0xFFFFFFFF)] [], by decide⟩

theorem witness_JeqJumpsWhenTheFlagIsSet : ((start 0 [(1, 0xFFFFFFFF)] []).setEqf true).eqf = true ∧
    0 ≤ s32 (((start 0 [(1, 0xFFFFFFFF)] []).setEqf true).reg 0) ∧
    s32 (((start 0 [(1, 0xFFFFFFFF)] []).setEqf true).reg 1) < 0 ∧ State.reset.eqf = false := by decide

theorem witness_JneqJumpsWhenTheFlagIsClear : (start 0 [(1, 0xFFFFFFFF)] []).eqf = false ∧
    0 ≤ s32 ((start 0 [(1, 0xFFFFFFFF)] []).reg 0) ∧ s32 ((start 0 [(1, 0xFFFFFFFF)] []).reg 1) < 0 ∧
    (State.reset.setEqf true).eqf = true := by decide

theorem witness_FetchedInstructionLiesInTheProgram : (start 0 [] [0x07, 0]).prog.wf = true ∧
    (start 0 [] [0x07, 0]).fetch = .ok (.jmp 0) [] := by decide

/-! A STEP that completes, for each arm of `PcNeverWraps`: the absolute, forward and backward jump, the conditional jumps
both ways, and an instruction that is followed by the next. -/

theorem witness_PcNeverWraps_jmp : (start 0 [(0, 3)] [7, 0]).prog.wf = true ∧ (start 0 [(0, 3)] [7, 0]).len ≤ 2147483648 ∧
    (start 0 [(0, 3)] [7, 0]).fetch = .ok (.jmp 0) [] ∧
    after (start 0 [(0, 3)] [7, 0]) [] = some ([], 3, .running, 0) := by decide

theorem witness_PcNeverWraps_jmpf : (start 0 [(0, 3)] [8, 0]).prog.wf = true ∧ (start 0 [(0, 3)] [8, 0]).len ≤ 2147483648 ∧
    (start 0 [(0, 3)] [8, 0]).fetch = .ok (.jmpf 0) [] ∧
    after (start 0 [(0, 3)] [8, 0]) [] = some ([], 5, .running, 0) := by decide

theorem witness_PcNeverWraps_jmpb : (start 0 [(0, 2)] [9, 0]).prog.wf = true ∧ (start 0 [(0, 2)] [9, 0]).len ≤ 2147483648 ∧
    (start 0 [(0, 2)] [9, 0]).fetch = .ok (.jmpb 0) [] ∧
    after (start 0 [(0, 2)] [9, 0]) [] = some ([], 0, .running, 0) := by decide

theorem witness_PcNeverWraps_jeq : (start 0 [(0, 7)] [16, 0]).prog.wf = true ∧
    (start 0 [(0, 7)] [16, 0]).len ≤ 2147483648 ∧ (start 0 [(0, 7)] [16, 0]).fetch = .ok (.jeq 0) [] ∧
    after (start 0 [(0, 7)] [16, 0]) [] = some ([], 2, .running, 0) ∧
    ((start 0 [(0, 7)] [16, 0]).setEqf true).fetch = .ok (.jeq 0) [] ∧
    after ((start 0 [(0, 7)] [16, 0]).setEqf true) [] = some ([], 7, .running, 0) := by decide

theorem witness_PcNeverWraps_jneq : (start 0 [(0, 7)] [17, 0]).prog.wf = true ∧
    (start 0 [(0, 7)] [17, 0]).len ≤ 2147483648 ∧ (start 0 [(0, 7)] [17, 0]).fetch = .ok (.jneq 0) [] ∧
    after (start 0 [(0, 7)] [17, 0]) [] = some ([], 7, .running, 0) ∧
    ((start 0 [(0, 7)] [17, 0]).setEqf true).fetch = .ok (.jneq 0) [] ∧
    after ((start 0 [(0, 7)] [17, 0]).setEqf true) [] = some ([], 2, .running, 0) := by decide

theorem witness_PcNeverWraps_next : (start 0 [] [0]).prog.wf = true ∧ (start 0 [] [0]).len ≤ 2147483648 ∧
    (start 0 [] [0]).fetch = .ok .hlt [] ∧ after (start 0 [] [0]) [] = some ([], 1, .halted, 0) := by decide

theorem witness_SpareByteIsReadAndIgnored_cut : 10 ≤ (0x0A : Byte).toNat ∧ (0x0F : Byte).toNat ≤ 15 ∧
    ProgEndsAfter (start 0 [] [0x0A, 0, 1]) [0x0A, 0, 1] ∧ ProgEndsAfter (start 0 [] [0x0F, 0, 1]) [0x0F, 0, 1] := by
  unfold ProgEndsAfter BytesAtPc
  decide

theorem witness_SpareByteIsReadAndIgnored : (start 0 [] [0x0F, 0, 1, 0]).status = .running ∧
    BytesAtPc (start 0 [] [0x0F, 0, 1, 0]) [0x0F, 0, 1, 0] ∧
    BytesAtPc ((start 0 [] [0x0F, 0, 1, 0]).setProg (Memory.ofBytes [0x0F, 0, 1, 0xFF])) [0x0F, 0, 1, 0xFF] := by
  unfold BytesAtPc
  decide

theorem witness_HltHaltsNormally : (start 0 [] [0]).status = .running ∧
    (start 0 [] [0]).prog.read (u32 (start 0 [] [0]).pc) = some 0x00 := by decide

theorem witness_IllegalOpcodeFaults : (start 0 [] [6]).prog.read 0 = some 6 ∧ (6 : Byte).toNat = 6 ∧
    (start 0 [] [18]).prog.read 0 = some 18 ∧ 18 ≤ (18 : Byte).toNat ∧ 18 ≤ (255 : Byte).toNat := by decide

/-- A STEP into FAULTED with an opcode byte, and one without. -/
theorem witness_FaultEntryWritesOnlyTheRecord : (start 0 [] [6]).status = .running ∧
    after (start 0 [] [6]) [] = some ([], 1, .faulted, 1) ∧ State.reset.status = .running ∧
    after State.reset [] = some ([], 0, .faulted, 2) := by decide

theorem witness_EqfIsWrittenOnlyByComparisonsAndReadOnlyByJeqJneq :
    (∃ t, exec (.eq 0 1 0) State.reset = .next t ∧ t.eqf ≠ State.reset.eqf ∧ t.status ≠ .faulted) ∧
      isComparison (.eq 0 1 0) = true ∧ isCondJump (.load 0 1) = false ∧ (∃ t, exec (.load 0 1) State.reset = .next t) :=
  ⟨⟨_, rfl, by decide, by decide⟩, rfl, rfl, ⟨_, rfl⟩⟩

theorem witness_OnlyTheDestinationRegisterChanges :
    ∃ t, exec (.load 31 0xFFFF) State.reset = .next t ∧ t.reg 31 ≠ State.reset.reg 31 :=
  ⟨_, rfl, by decide⟩

theorem progCap_pos : 0 < Config.progCap := Nat.succ_pos _

theorem addByte_of_empty {s : State} (b : Byte) (h : s.len = 0) : HostOp.addByte b s = .next (s.setProg (s.prog.append b)) := by
  rw [HostOp.addByte, if_pos (by rw [h]; exact progCap_pos)]

theorem witness_ProgramMemoryIsWrittenOnlyByTheHost : (∃ t, exec .hlt State.reset = .next t) ∧
    (∃ t, step State.reset = .next t) ∧ (∃ t, HostOp.addByte 5 State.reset = .next t) ∧
    Memory.read [(0, 7)] 0 = some 7 :=
  ⟨⟨_, rfl⟩, ⟨_, rfl⟩, ⟨_, addByte_of_empty 5 rfl⟩, rfl⟩

theorem witness_StatusTransitions : (∃ t, step (start 0 [] [0]) = .next t) ∧ (start 0 [] [0]).status = .running ∧
    (∃ t, step (start 1 [] [0]).halt = .next t) ∧ (start 1 [] [0]).halt.status ≠ .running :=
  ⟨⟨_, rfl⟩, by decide, ⟨_, rfl⟩, by decide⟩

theorem witness_RemIsNeverRead : ∃ t, step (start 0 [(1, 7), (2, 2)] [5, 1, 2, 3]) = .next t ∧
    t.rem ≠ (start 0 [(1, 7), (2, 2)] [5, 1, 2, 3]).rem :=
  ⟨_, rfl, by decide⟩

/-- A halted engine meets the invariant. -/
theorem inv_halted : (start 1 [] [0]).halt.Inv where
  progWf := by decide
  fits := progCap_pos
  noFaultYet _ := by decide
  causeKnown h := absurd h (by decide)
  haltedAfterHlt _ := ⟨0, by decide, by decide⟩
  pastEndRecord h := absurd h (by decide)
  recordTrue h := absurd h (by decide)

/-- A running engine about to execute the last byte of its program meets the invariant. -/
theorem inv_running : (start 0 [] [0]).Inv where
  progWf := by decide
  fits := progCap_pos
  noFaultYet _ := by decide
  causeKnown h := absurd h (by decide)
  haltedAfterHlt h := absurd h (by decide)
  pastEndRecord h := absurd h (by decide)
  recordTrue h := absurd h (by decide)

/-- An engine faulted on an empty program meets the invariant. -/
theorem inv_faulted : ((start 0 [] []).enterFault .pcPastEnd 0 0).Inv where
  progWf := by decide
  fits := Nat.zero_le _
  noFaultYet h := absurd rfl h
  causeKnown _ := by decide
  haltedAfterHlt h := absurd h (by decide)
  pastEndRecord _ _ := by decide
  recordTrue _ h := absurd rfl h

theorem witness_StepKeepsTheInvariant : ((start 0 [] [0]).Inv ∧ ∃ t, step (start 0 [] [0]) = .next t) ∧
    ((start 1 [] [0]).halt.Inv ∧ ∃ t, step (start 1 [] [0]).halt = .next t) :=
  ⟨⟨inv_running, _, rfl⟩, inv_halted, _, rfl⟩

theorem witness_AddByteKeepsTheInvariant : ((start 0 [] []).enterFault .pcPastEnd 0 0).Inv ∧
    ∃ t, HostOp.addByte 1 ((start 0 [] []).enterFault .pcPastEnd 0 0) = .next t :=
  ⟨inv_faulted, _, addByte_of_empty 1 rfl⟩

theorem witness_ReachableStatesMeetTheInvariant : ∃ s, Reachable s ∧ s ≠ State.reset :=
  ⟨_, .step .reset (rfl : step State.reset = .next _), by decide⟩

/-- Below capacity, and at it. -/
theorem witness_AddByteAppendsOrIsRefused : (State.reset.prog.wf = true ∧ State.reset.len < Config.progCap) ∧
    ∃ s : State, s.prog.wf = true ∧ Config.progCap ≤ s.len :=
  ⟨⟨by decide, progCap_pos⟩,
    State.reset.setProg (Memory.ofBytes (List.replicate Config.progCap 0)), Memory.ofBytes_wf _, by
      rw [State.setProg_len, ← Memory.length_bytes, Memory.bytes_ofBytes, List.length_replicate]⟩

theorem witness_LoadedProgramIsReadBack : ([] : List Byte).length ≤ Config.progCap ∧
    (List.replicate Config.progCap (0 : Byte)).length ≤ Config.progCap := by
  simp

theorem witness_ReadProgReturnsTheProgramBytes : (start 0 [] [1, 2, 3]).prog.wf = true := by decide

theorem witness_AddByteCommutesWithStep_running : (start 0 [] [0]).status = .running ∧
    ∃ t, step (start 0 [] [0]) = .next t ∧ t.fcause ≠ 2 ∧ t.fcause ≠ 3 :=
  ⟨by decide, _, rfl, by decide⟩

theorem witness_AddByteCommutesWithStep_terminal : (start 0 [] []).halt.status ≠ .running ∧
    (∃ t, step (start 0 [] []).halt = .next t) ∧ ∃ s', HostOp.addByte 1 (start 0 [] []).halt = .next s' :=
  ⟨by decide, ⟨_, rfl⟩, _, addByte_of_empty 1 rfl⟩

theorem witness_RunEndsInOneTerminalState : ∃ t, RunTo (start 0 [] [0]) t :=
  ⟨_, .last (rfl : step (start 0 [] [0]) = .next _) (by decide)⟩

theorem witness_JmpbBackToItselfRunsForEver : (start 0 [(0, 2)] [9, 0]).status = .running ∧
    u32 (start 0 [(0, 2)] [9, 0]).pc + 2 ≤ 2147483648 ∧ BytesAtPc (start 0 [(0, 2)] [9, 0]) [0x09, regByte 0] ∧
    s32 ((start 0 [(0, 2)] [9, 0]).reg 0) = 2 := by
  unfold BytesAtPc
  decide

theorem witness_AssembledLineIsWellFormed : ∃ i, Assembler.instruction [['e', 'q'], ['$', '0'], ['$', '3', '1']] = .ok i ∧
    isComparison i = true :=
  ⟨.eq 0 31 0, by decide, rfl⟩

theorem witness_EveryInstructionHasALine : (Instr.eq 0 31 0).wf = true ∧ (∀ b, Instr.eq 0 31 0 ≠ .illegal b) ∧
    encode (.eq 0 31 0) = [0x0A, 0, 31, 0x00] :=
  ⟨by decide, by simp, by decide⟩

/-- A text with a blank line, whose two instructions keep the order of their lines. -/
theorem witness_AssembledProgramIsItsInstructionsEndToEnd :
    (((Assembler.lines "jmp $3\n\nhlt".toList).map Assembler.tokens).filter (fun toks => toks ≠ [])).map
      Assembler.instruction = [Instr.jmp 3, Instr.hlt].map Except.ok ∧
    Assembler.assemble "jmp $3\n\nhlt".toList = .bytes [0x07, 0x03, 0x00] := by decide

end Sys2Proof.Tests
end

section
/-! The family `00_scope.md`: written-out words and the instructions they decode to. -/

namespace Sys2Proof

open Laws

/-- An opcode-table word whose bytes in memory begin with those of an instruction is read as that instruction
(assumption 1). -/
theorem decodeTableWord_of_bytes {nbits w : Nat} {i : Instr} (rest : List Byte) (hi : RoundTrip.Statement i)
    (hwf : i.opcodeWf = true) (hb : tableWordBytes nbits w = encode i ++ rest) : decodeTableWord nbits w = some i := by
  have hd : decode (tableWordBytes nbits w) = .ok i rest := by
    rw [hb]
    exact hi hwf rest
  simp only [decodeTableWord, hd]

/-- Settles O1. Each word evaluates to the bytes of its instruction followed by the bytes left over, so it is an instance
of the round trip of that instruction, or of `decode_illegal` for the two bytes that are no opcode. -/
theorem writtenOutWordsDecode : Obligations.WrittenOutWordsDecode := by
  unfold Obligations.WrittenOutWordsDecode
  refine ⟨?hlt, ?load, ?add, ?sub, ?mul, ?div, ?jmp, ?jmpf, ?jmpb, ?eq, ?neq, ?gt, ?lt, ?gteq, ?lteq, ?jeq, ?jneq,
    ?reserved, ?unassigned, ?tableLoad, ?tableJmpb, ?tableIllegal⟩
  case hlt => exact RoundTrip.hlt rfl [0x2A]
  case load => exact RoundTrip.load 0 500 rfl []
  case add => exact RoundTrip.add 0 1 2 rfl []
  case sub => exact RoundTrip.sub 4 5 6 rfl []
  case mul => exact RoundTrip.mul 31 0 1 rfl []
  case div => exact RoundTrip.div 0 1 5 rfl []
  case jmp => exact RoundTrip.jmp 0 rfl [0x00, 0x00]
  case jmpf => exact RoundTrip.jmpf 2 rfl []
  case jmpb => exact RoundTrip.jmpb 3 rfl []
  case eq => exact RoundTrip.eq 0 1 0 rfl [0x0A, 0x00, 0x01, 0x00]
  case neq => exact RoundTrip.neq 2 3 0 rfl []
  case gt => exact RoundTrip.gt 7 31 255 rfl []
  case lt => exact RoundTrip.lt 4 5 0 rfl []
  case gteq => exact RoundTrip.gteq 6 7 1 rfl []
  case lteq => exact RoundTrip.lteq 8 9 0 rfl []
  case jeq => exact RoundTrip.jeq 5 rfl [0x00]
  case jneq => exact RoundTrip.jneq 4 rfl [0x00]
  case reserved => exact decode_illegal (by decide) [0x00]
  case unassigned => exact decode_illegal (by decide) []
  case tableLoad => exact decodeTableWord_of_bytes [] (RoundTrip.load 0 500) rfl (by decide)
  case tableJmpb => exact decodeTableWord_of_bytes [0x00, 0x00] (RoundTrip.jmpb 7) rfl (by decide)
  case tableIllegal =>
    exact decodeTableWord_of_bytes [0x00, 0x00, 0x00] (RoundTrip.illegal 18) (by decide) (by decide)

end Sys2Proof
end

section
/-! The family `10_state.md`, first part: facts about numbers, the program memory and the decoder that its statements
rest on. -/

namespace Sys2Proof.Machine

/-- The capacity is at most 2^31, whichever it is (R5, D5). -/
theorem progCap_le : Config.progCap ≤ 2 ^ 31 := Config.progCapPred.isLt

theorem u32_ofNat {n : Nat} (h : n < 2 ^ 32) : u32 (BitVec.ofNat 32 n) = n := by
  simpa [u32] using Nat.mod_eq_of_lt h

/-- An advance that stays below 2^32 does not wrap (R26). -/
theorem u32_advance {s : State} {n : Nat} (h : u32 s.pc + n < 2 ^ 32) : u32 (s.advance n).pc = u32 s.pc + n := by
  simp only [u32, State.advance_pc, BitVec.toNat_add, BitVec.toNat_ofNat, Nat.add_mod_mod] at h ⊢
  exact Nat.mod_eq_of_lt h

/-- An address that reads as a byte is below `len` (R48). -/
theorem Memory.lt_len_of_read {m : Memory} {a : Nat} {b : Byte} (hwf : m.wf = true) (h : m.read a = some b) :
    a < m.len := by
  by_contra hle
  simp [(Memory.read_eq_none hwf a).mpr (by omega)] at h

/-- No more bytes are read from an address on than lie between it and the end (R41). -/
theorem Memory.length_bytesFrom_le {m : Memory} (hwf : m.wf = true) :
    ∀ n a : Nat, (m.bytesFrom a n).length ≤ m.len - a
  | 0, _ => Nat.zero_le _
  | n + 1, a => by
    cases hr : m.read a with
    | none => simp [Memory.bytesFrom_nil hr]
    | some b =>
      have hlt := Memory.lt_len_of_read hwf hr
      have ih := Memory.length_bytesFrom_le hwf n (a + 1)
      rw [Memory.bytesFrom_cons hr, List.length_cons]
      omega

variable {s : State} {i : Instr} {rest : List Byte}

/-- Whatever bytes decode to an instruction are its bytes, then the rest (R60). -/
theorem eq_encode_of_decode {bs : List Byte} (h : decode bs = .ok i rest) : bs = encode i ++ rest := by
  cases bs with
  | nil => simp [decode] at h
  | cons op bs =>
    rw [encode, opcode_of_decode h, List.cons_append]
    congr 1
    unfold decode at h
    dsimp only at h
    split at h
    case h_1 | h_18 =>
      obtain ⟨rfl, rfl⟩ := by simpa using h
      rfl
    case h_2 =>
      obtain ⟨b1, b2, b3, rfl, rfl⟩ := operandsRI_ok h
      simp [Instr.operandBytes]
    case h_7 | h_8 | h_9 | h_16 | h_17 =>
      obtain ⟨b1, rfl, rfl⟩ := operandsR_ok h
      rfl
    all_goals
      obtain ⟨b1, b2, b3, rfl, rfl⟩ := operands3_ok h
      rfl

theorem length_encode (i : Instr) : (encode i).length = i.size := by
  cases i <;> rfl

/-- An instruction that writes a register is 4 bytes long (R63, R64). -/
theorem size_of_destByte {b : Byte} (h : destByte i = some b) : i.size = 4 := by
  cases i with
  | load | add | sub | mul | div => rfl
  | _ => simp [destByte] at h

/-- A comparison is 4 bytes long (R65). -/
theorem size_of_isComparison (h : isComparison i = true) : i.size = 4 := by
  cases i with
  | eq | neq | gt | lt | gteq | lteq => rfl
  | _ => simp [isComparison] at h

/-- A running engine executes the instruction it fetches (R101). -/
theorem step_of_fetch (hr : s.status = .running) (hf : s.fetch = .ok i rest) : step s = exec i s := by
  simp [step, cycle, hr, hf]

/-- HLT's byte at `pc` is fetched as HLT, whatever follows it (R66). -/
theorem fetch_of_read_zero (h : s.prog.read (u32 s.pc) = some 0x00) : ∃ rest, s.fetch = .ok .hlt rest := by
  rw [State.fetch, fetchBytes_of_some h]
  exact ⟨_, rfl⟩

end Sys2Proof.Machine
end

section
/-! The family `10_state.md`: the invariant of R36, kept by every operation of the host. -/

namespace Sys2Proof.Machine

variable {s t : State}

/-- Every cause has a code from 1 to 8 (R180). -/
theorem Cause.code_bounds (c : Cause) : 1 ≤ c.code.toNat ∧ c.code.toNat ≤ 8 := by
  cases c <;> decide

/-- Code 2 is PC_PAST_END's alone (R180). -/
theorem Cause.code_eq_two {c : Cause} : c.code = 2 ↔ c = .pcPastEnd := by
  cases c <;> decide

/-- The invariant of a running state looks at the program and the fault record only. -/
theorem State.Inv.of_running (h : s.Inv) (hr : s.status = .running) (status : t.status = .running)
    (fcause : t.fcause = s.fcause) (fopcode : t.fopcode = s.fopcode) (fpc : t.fpc = s.fpc) (prog : t.prog = s.prog) :
    t.Inv where
  progWf := prog ▸ h.progWf
  fits := by simpa [State.len, prog] using h.fits
  noFaultYet _ := by simpa [fcause, fopcode, fpc] using h.noFaultYet (by simp [hr])
  causeKnown hf := by simp [status] at hf
  haltedAfterHlt hh := by simp [status] at hh
  pastEndRecord hf := by simp [status] at hf
  recordTrue hf := by simp [status] at hf

/-- Fault entry keeps the invariant when the record it writes is true of the program (R31, R190). -/
theorem State.Inv.enterFault (h : s.Inv) {c : Cause} {op : Byte} {ipc : Word}
    (past : c = .pcPastEnd → op = 0 ∧ ipc = s.pc) (found : c ≠ .pcPastEnd → s.prog.read (u32 ipc) = some op) :
    (s.enterFault c op ipc).Inv where
  progWf := h.progWf
  fits := h.fits
  noFaultYet hf := absurd rfl hf
  causeKnown _ := c.code_bounds
  haltedAfterHlt hh := by simp at hh
  pastEndRecord _ hc := past (Cause.code_eq_two.mp hc)
  recordTrue _ hc := found fun e => hc (Cause.code_eq_two.mpr e)

/-- HLT keeps the invariant: its byte lies below 2^31, so `pc` moves past it without a wrap (R26, R112). -/
theorem State.Inv.halt_advance (h : s.Inv) (hr : s.status = .running) (hlt : s.prog.read (u32 s.pc) = some 0x00) :
    (s.advance 1).halt.Inv where
  progWf := h.progWf
  fits := h.fits
  noFaultYet _ := h.noFaultYet (by simp [hr])
  causeKnown hf := by simp at hf
  haltedAfterHlt _ := by
    have hlen : u32 s.pc < s.len := Memory.lt_len_of_read h.progWf hlt
    have hcap := h.fits.trans progCap_le
    exact ⟨u32 s.pc, u32_advance (by omega), hlt⟩
  pastEndRecord hf := by simp at hf
  recordTrue hf := by simp at hf

/-- Every effect of the instruction whose opcode byte lies at `pc` keeps the invariant of a running state. -/
theorem Effect.inv {i : Instr} (he : Effect i s t) (h : s.Inv) (hr : s.status = .running)
    (hop : s.prog.read (u32 s.pc) = some i.opcode) : t.Inv := by
  cases he with
  | fault c hpast _ _ =>
    have hadv : (s.advance i.size).Inv := h.of_running hr hr rfl rfl rfl rfl
    exact hadv.enterFault (fun e => absurd e hpast) fun _ => hop
  | writeReg | divide | writeFlag | jump => exact h.of_running hr hr rfl rfl rfl rfl
  | halt hi =>
    subst hi
    exact h.halt_advance hr hop

/-- Settles O39, by the four things a STEP can do: nothing, one of the two faults of running past the end, or the
effect of the instruction at `pc`. -/
theorem stepKeepsTheInvariant : Obligations.StepKeepsTheInvariant := by
  intro s t h hstep
  obtain ⟨-, rfl⟩ | ⟨-, -, rfl⟩ | ⟨op, n, hr, hf, rfl⟩ | ⟨i, rest, hr, hf, hx⟩ := step_cases hstep
  · exact h
  · exact h.enterFault (fun _ => ⟨rfl, rfl⟩) fun hc => absurd rfl hc
  · have hadv : (s.advance n).Inv := h.of_running hr hr rfl rfl rfl rfl
    exact hadv.enterFault (by simp) fun _ => read_of_fetch_truncated hf
  · exact (exec_effect hx).inv h hr (read_of_fetch_ok hf)

/-- What ADD_BYTE has done when it is not refused (R43). -/
theorem addByte_next {b : Byte} (h : HostOp.addByte b s = .next t) :
    s.len < Config.progCap ∧ t = s.setProg (s.prog.append b) := by
  unfold HostOp.addByte at h
  split at h
  · exact ⟨‹_›, by simpa using h.symm⟩
  · simp at h

/-- Settles O40: the bytes that the record and a HLT name stay where they were, and below capacity there is room for one
more. -/
theorem addByteKeepsTheInvariant : Obligations.AddByteKeepsTheInvariant := by
  intro b s t h hadd
  obtain ⟨hlen, rfl⟩ := addByte_next hadd
  exact
    { progWf := Memory.append_wf h.progWf b
      fits := by simpa [State.len] using Nat.succ_le_of_lt hlen
      noFaultYet := h.noFaultYet
      causeKnown := h.causeKnown
      haltedAfterHlt := fun hh => by
        obtain ⟨a, hpc, hread⟩ := h.haltedAfterHlt hh
        exact ⟨a, hpc, Memory.read_append_of_some hread⟩
      pastEndRecord := h.pastEndRecord
      recordTrue := fun hf hc => Memory.read_append_of_some (h.recordTrue hf hc) }

/-- Settles O38: the program is empty, the record zero and the engine RUNNING. -/
theorem resetMeetsTheInvariant : Obligations.ResetMeetsTheInvariant where
  progWf := rfl
  fits := Nat.zero_le _
  noFaultYet _ := ⟨rfl, rfl, rfl⟩
  causeKnown hf := by simp [State.reset] at hf
  haltedAfterHlt hh := by simp [State.reset] at hh
  pastEndRecord hf := by simp [State.reset] at hf
  recordTrue hf := by simp [State.reset] at hf

/-- The invariant holds of every state that the host's operations reach. -/
theorem Reachable.inv (h : Reachable s) : s.Inv := by
  induction h with
  | reset => exact resetMeetsTheInvariant
  | resetAgain => exact resetMeetsTheInvariant
  | addByte b _ hadd ih => exact addByteKeepsTheInvariant b _ _ ih hadd
  | step _ hstep ih => exact stepKeepsTheInvariant _ _ ih hstep

/-- Settles O41: the invariant bounds `len` by PROG_CAP, which is at most 2^31. -/
theorem reachableStatesMeetTheInvariant : Obligations.ReachableStatesMeetTheInvariant :=
  fun _ h => ⟨h.inv, h.inv.fits.trans progCap_le⟩

end Sys2Proof.Machine
end

section
/-! The family `10_state.md`: `pc` never wraps (R26). -/

namespace Sys2Proof.Machine

/-- Settles O25: the fetched bytes are the instruction's and what follows it, and they all lie below `len`. -/
theorem fetchedInstructionLiesInTheProgram : Obligations.FetchedInstructionLiesInTheProgram := by
  intro s i rest hwf hf
  have hbytes : s.fetchBytes = encode i ++ rest := eq_encode_of_decode hf
  have hle : s.fetchBytes.length ≤ s.len - u32 s.pc := Memory.length_bytesFrom_le hwf _ _
  have hpos : 0 < (encode i).length := by simp [encode]
  rw [hbytes, List.length_append] at hle
  omega

variable {s t : State} {i : Instr} {op : Byte}

/-! ### A check that did not fault has passed -/

theorem withReg_completes {ipc : Word} {b : Byte} {k : Fin 32 → Result} (h : withReg op ipc b s k = .next t)
    (ht : t.status ≠ .faulted) : ∃ j, b = regByte j ∧ k j = .next t := by
  obtain ⟨-, rfl⟩ | hk := withReg_next h
  · simp at ht
  · exact hk

theorem withReg2_completes {ipc : Word} {b1 b2 : Byte} {k : Fin 32 → Fin 32 → Result}
    (h : withReg2 op ipc b1 b2 s k = .next t) (ht : t.status ≠ .faulted) :
    ∃ j1 j2, b1 = regByte j1 ∧ b2 = regByte j2 ∧ k j1 j2 = .next t := by
  obtain ⟨-, rfl⟩ | hk := withReg2_next h
  · simp at ht
  · exact hk

theorem withJumpOperand_completes {ipc : Word} {r : Fin 32} {k : Nat → Result}
    (h : withJumpOperand op ipc r s k = .next t) (ht : t.status ≠ .faulted) :
    ∃ v : Nat, s32 (s.reg r) = v ∧ v < 2 ^ 31 ∧ k v = .next t := by
  obtain ⟨-, rfl⟩ | ⟨v, hv, hk⟩ := withJumpOperand_next h
  · simp at ht
  · exact ⟨v, hv, by have := s32_lt (s.reg r); omega, hk⟩

/-! ### Where an instruction that completes leaves `pc` -/

/-- No jump and no fault: `pc` moves past the instruction (R25). -/
theorem Effect.pc_of_not_jump (he : Effect i s t) (hs : i.size ≠ 2) (ht : t.status ≠ .faulted) :
    t.pc = (s.advance i.size).pc := by
  cases he with
  | fault => simp at ht
  | writeReg d v hd => rw [size_of_destByte hd]; rfl
  | divide r1 r2 d q r hi => rw [hi]; rfl
  | writeFlag b hc => rw [size_of_isComparison hc]; rfl
  | jump t hj => exact absurd hj hs
  | halt hi => rw [hi]; rfl

/-- An absolute jump that completes leaves its register's number (R140). -/
theorem u32_pc_of_absoluteJump {ipc : Word} {j : Fin 32} {u : State}
    (h : withJumpOperand op ipc j s (fun v => .next (u.setPc (BitVec.ofNat 32 v))) = .next t)
    (ht : t.status ≠ .faulted) : (u32 t.pc : Int) = s32 (s.reg j) := by
  obtain ⟨v, hv, hlt, hk⟩ := withJumpOperand_completes h ht
  obtain rfl := by simpa using hk.symm
  rw [hv, State.setPc_pc, u32_ofNat (by omega)]

/-- A conditional jump that completes: its register's number if it is taken, else past its two bytes (R160, R161). -/
theorem u32_pc_of_condJump {taken : Bool} {r : Byte} (h : condJump op taken r s = .next t) (ht : t.status ≠ .faulted)
    (hpc : u32 s.pc + 2 ≤ 2 ^ 31) :
    ∃ j, r = regByte j ∧ (u32 t.pc : Int) = if taken then s32 (s.reg j) else (u32 s.pc : Int) + 2 := by
  obtain ⟨j, rfl, hk⟩ := withReg_completes h ht
  refine ⟨j, rfl, ?_⟩
  cases taken with
  | true => exact u32_pc_of_absoluteJump (s := s.advance 2) hk ht
  | false =>
    obtain rfl := by simpa using hk.symm
    exact congrArg Nat.cast (u32_advance (n := 2) (by omega))

theorem u32_pc_of_jmp {r : Byte} (h : execJmp r s = .next t) (ht : t.status ≠ .faulted) :
    ∃ j, r = regByte j ∧ (u32 t.pc : Int) = s32 (s.reg j) := by
  obtain ⟨j, rfl, hk⟩ := withReg_completes h ht
  exact ⟨j, rfl, u32_pc_of_absoluteJump (s := s.advance 2) hk ht⟩

/-- JMPF counts from the address after its two bytes; a distance below 2^31 does not wrap from there (R26, R141). -/
theorem u32_pc_of_jmpf {r : Byte} (h : execJmpf r s = .next t) (ht : t.status ≠ .faulted)
    (hpc : u32 s.pc + 2 ≤ 2 ^ 31) :
    ∃ j, r = regByte j ∧ (u32 t.pc : Int) = u32 s.pc + 2 + s32 (s.reg j) := by
  obtain ⟨j, rfl, hk⟩ := withReg_completes h ht
  obtain ⟨v, hv, hlt, hk⟩ := withJumpOperand_completes hk ht
  obtain rfl := by simpa using hk.symm
  have h2 : u32 (s.advance 2).pc = u32 s.pc + 2 := u32_advance (by omega)
  have hsum : u32 ((s.advance 2).advance v).pc = u32 (s.advance 2).pc + v := u32_advance (by omega)
  rw [State.advance_reg] at hv
  exact ⟨j, rfl, by omega⟩

/-- JMPB counts back from the address after its two bytes, and faults below 0 (R142). -/
theorem u32_pc_of_jmpb {r : Byte} (h : execJmpb r s = .next t) (ht : t.status ≠ .faulted)
    (hpc : u32 s.pc + 2 ≤ 2 ^ 31) :
    ∃ j, r = regByte j ∧ (u32 t.pc : Int) = u32 s.pc + 2 - s32 (s.reg j) := by
  obtain ⟨j, rfl, hk⟩ := withReg_completes h ht
  obtain ⟨v, hv, -, hk⟩ := withJumpOperand_completes hk ht
  rw [State.advance_reg] at hv
  have h2 : u32 (s.advance 2).pc = u32 s.pc + 2 := u32_advance (by omega)
  rw [h2] at hk
  split at hk
  · obtain rfl := by simpa [raise] using hk.symm
    simp at ht
  · obtain rfl := by simpa using hk.symm
    have hdiff : u32 (s.setPc (BitVec.ofNat 32 (u32 s.pc + 2 - v))).pc = u32 s.pc + 2 - v := u32_ofNat (by omega)
    exact ⟨j, rfl, by omega⟩

/-- Settles O26: the fetched instruction ends at or below 2^31 (O25), so neither an advance nor a distance added to it
wraps; then by the instruction, the five jumps one by one and the others together. -/
theorem pcNeverWraps : Obligations.PcNeverWraps := by
  intro s t i rest hwf hlen hr hf hstep ht
  have hx : exec i s = .next t := step_of_fetch hr hf ▸ hstep
  have hend : u32 s.pc + (encode i).length ≤ 2 ^ 31 := (fetchedInstructionLiesInTheProgram s i rest hwf hf).trans hlen
  have hother : i.size ≠ 2 → u32 t.pc = u32 s.pc + (encode i).length := fun hs => by
    rw [(exec_effect hx).pc_of_not_jump hs ht, length_encode, u32_advance (by rw [length_encode] at hend; omega)]
  cases i with
  | jmp r => exact u32_pc_of_jmp hx ht
  | jmpf r => exact u32_pc_of_jmpf hx ht hend
  | jmpb r => exact u32_pc_of_jmpb hx ht hend
  | jeq r => exact u32_pc_of_condJump hx ht hend
  | jneq r =>
    obtain ⟨j, hj, hpc⟩ := u32_pc_of_condJump hx ht hend
    exact ⟨j, hj, by rw [hpc]; cases s.eqf <;> rfl⟩
  | _ => exact hother (by simp [Instr.size])

end Sys2Proof.Machine
end

section
/-! The family `10_state.md`: what a STEP writes, and what it does not read. -/

namespace Sys2Proof.Machine

variable {s s' t : State} {i : Instr}

/-! ### What is written -/

/-- Settles O34, by the effect: only LOAD, ADD, SUB, MUL and a completed DIV have a destination, and of the registers
they write that one alone. -/
theorem onlyTheDestinationRegisterChanges : Obligations.OnlyTheDestinationRegisterChanges := by
  intro i s t j hx hne
  have only : ∀ {d v}, ((s.advance 4).setReg d v).reg j ≠ s.reg j → j = d := fun h => by
    by_contra hjd
    exact h (State.setReg_reg_ne _ _ hjd)
  cases exec_effect hx with
  | fault | writeFlag | jump | halt => exact absurd rfl hne
  | writeReg d v hd =>
    obtain rfl := only hne
    exact ⟨hd, rfl, rfl⟩
  | divide r1 r2 d q r hi =>
    obtain rfl := only hne
    exact ⟨by rw [hi]; rfl, rfl, rfl⟩

/-- `eqf` is written by a comparison or not at all (R28). -/
theorem Effect.isComparison_of_eqf_ne (he : Effect i s t) (hne : t.eqf ≠ s.eqf) : isComparison i = true := by
  cases he with
  | writeFlag b hc => exact hc
  | fault | writeReg | divide | jump | halt => exact absurd rfl hne

/-- `rem` is written by a DIV that completes or not at all (R29, R133). -/
theorem Effect.div_of_rem_ne (he : Effect i s t) (hne : t.rem ≠ s.rem) :
    i.opcode = 0x05 ∧ t.status = s.status := by
  cases he with
  | divide r1 r2 d q r hi => exact ⟨by rw [hi]; rfl, rfl⟩
  | fault | writeReg | writeFlag | jump | halt => exact absurd rfl hne

/-- An instruction that a running engine executes leaves it HALTED only if it is HLT (R30, R170). -/
theorem Effect.eq_hlt_of_halted (he : Effect i s t) (hr : s.status = .running) (ht : t.status = .halted) :
    i = .hlt := by
  cases he with
  | halt hi => exact hi
  | fault => simp at ht
  | writeReg | divide | writeFlag | jump => simp [hr] at ht

/-- Settles O36. From HALTED to the byte: of all that a STEP can do only HLT's effect halts. From the byte to HALTED:
HLT's byte is fetched as HLT, whatever follows it. -/
theorem statusTransitions : Obligations.StatusTransitions := by
  intro s t hstep
  refine ⟨fun hs => ?terminal, fun hr => ⟨fun ht => ?byte, fun hread => ?halts⟩⟩
  case terminal =>
    obtain ⟨-, rfl⟩ | ⟨hr, -⟩ | ⟨_, _, hr, -⟩ | ⟨_, _, hr, -⟩ := step_cases hstep
    · rfl
    all_goals exact absurd hr hs
  case byte =>
    obtain ⟨hs, -⟩ | ⟨-, -, rfl⟩ | ⟨op, n, -, -, rfl⟩ | ⟨i, rest, -, hf, hx⟩ := step_cases hstep
    · exact absurd hr hs
    · simp at ht
    · simp at ht
    · rw [read_of_fetch_ok hf, (exec_effect hx).eq_hlt_of_halted hr ht]
      rfl
  case halts =>
    obtain ⟨rest, hf⟩ := fetch_of_read_zero hread
    rw [step_of_fetch hr hf] at hstep
    obtain rfl := by simpa [exec, execHlt] using hstep.symm
    rfl

/-! ### What is not read

An erasure `u` forgets part of the state that no instruction reads but a conditional jump. Two states that it makes
equal stay so under every update of the state, hence under every instruction. -/

/-- Apply `f` to the next state, if there is one. -/
def mapNext (f : State → State) : Result → Result
  | .next s => .next (f s)
  | .fault r => .fault r
  | .refused r => .refused r

theorem mapNext_eq_next {f : State → State} {r : Result} : mapNext f r = .next t ↔ ∃ s, r = .next s ∧ f s = t := by
  cases r <;> simp [mapNext]

theorem mapNext_eq_refused {f : State → State} {r : Result} {x : Refusal} :
    mapNext f r = .refused x ↔ r = .refused x := by
  cases r <;> simp [mapNext]

/-- `u` keeps `pc` and the registers, and every update leads from states that `u` makes equal to states that `u` makes
equal. -/
structure Erasure (u : State → State) : Prop where
  pc (s : State) : (u s).pc = s.pc
  reg (s : State) (j : Fin 32) : (u s).reg j = s.reg j
  setReg {s s' : State} (d : Fin 32) (v : Word) (h : u s = u s') : u (s.setReg d v) = u (s'.setReg d v)
  setPc {s s' : State} (v : Word) (h : u s = u s') : u (s.setPc v) = u (s'.setPc v)
  setEqf {s s' : State} (b : Bool) (h : u s = u s') : u (s.setEqf b) = u (s'.setEqf b)
  setRem {s s' : State} (v : Word) (h : u s = u s') : u (s.setRem v) = u (s'.setRem v)
  halt {s s' : State} (h : u s = u s') : u s.halt = u s'.halt
  enterFault {s s' : State} (c : Cause) (op : Byte) (ipc : Word) (h : u s = u s') :
    u (s.enterFault c op ipc) = u (s'.enterFault c op ipc)

/-- Forgetting `eqf` is an erasure. -/
theorem erasure_eqf : Erasure (State.setEqf · false) where
  pc _ := rfl
  reg _ _ := rfl
  setReg d v h := congrArg (State.setReg · d v) h
  setPc v h := congrArg (State.setPc · v) h
  setEqf _ h := h
  setRem v h := congrArg (State.setRem · v) h
  halt h := congrArg State.halt h
  enterFault c op ipc h := congrArg (State.enterFault · c op ipc) h

/-- Forgetting `rem` is an erasure. -/
theorem erasure_rem : Erasure (State.setRem · 0) where
  pc _ := rfl
  reg _ _ := rfl
  setReg d v h := congrArg (State.setReg · d v) h
  setPc v h := congrArg (State.setPc · v) h
  setEqf b h := congrArg (State.setEqf · b) h
  setRem _ h := h
  halt h := congrArg State.halt h
  enterFault c op ipc h := congrArg (State.enterFault · c op ipc) h

namespace Erasure

variable {u : State → State} (hu : Erasure u) (h : u s = u s') {op : Byte}

include hu h

theorem pc_eq : s.pc = s'.pc := by
  rw [← hu.pc s, h, hu.pc]

theorem reg_eq (j : Fin 32) : s.reg j = s'.reg j := by
  rw [← hu.reg s, h, hu.reg]

theorem advance_eq (n : Nat) : u (s.advance n) = u (s'.advance n) := by
  rw [State.advance, State.advance, hu.pc_eq h]
  exact hu.setPc _ h

theorem raise_eq (c : Cause) (ipc : Word) : mapNext u (raise c op ipc s) = mapNext u (raise c op ipc s') :=
  congrArg Host.Outcome.next (hu.enterFault c op ipc h)

theorem withReg_eq {ipc : Word} {b : Byte} {k k' : Fin 32 → Result} (hk : ∀ j, mapNext u (k j) = mapNext u (k' j)) :
    mapNext u (withReg op ipc b s k) = mapNext u (withReg op ipc b s' k') := by
  obtain hb | ⟨j, rfl⟩ := badReg_or_regByte b
  · rw [withReg_of_badReg hb, withReg_of_badReg hb]
    exact hu.raise_eq h _ _
  · simpa using hk j

theorem withReg2_eq {ipc : Word} {b1 b2 : Byte} {k k' : Fin 32 → Fin 32 → Result}
    (hk : ∀ j1 j2, mapNext u (k j1 j2) = mapNext u (k' j1 j2)) :
    mapNext u (withReg2 op ipc b1 b2 s k) = mapNext u (withReg2 op ipc b1 b2 s' k') :=
  hu.withReg_eq h fun j1 => hu.withReg_eq h (hk j1)

theorem withReg3_eq {ipc : Word} {b1 b2 b3 : Byte} {k k' : Fin 32 → Fin 32 → Fin 32 → Result}
    (hk : ∀ j1 j2 j3, mapNext u (k j1 j2 j3) = mapNext u (k' j1 j2 j3)) :
    mapNext u (withReg3 op ipc b1 b2 b3 s k) = mapNext u (withReg3 op ipc b1 b2 b3 s' k') :=
  hu.withReg_eq h fun j1 => hu.withReg2_eq h (hk j1)

theorem withJumpOperand_eq {ipc : Word} {j : Fin 32} {k k' : Nat → Result}
    (hk : ∀ v, mapNext u (k v) = mapNext u (k' v)) :
    mapNext u (withJumpOperand op ipc j s k) = mapNext u (withJumpOperand op ipc j s' k') := by
  unfold withJumpOperand
  rw [hu.reg_eq h]
  split
  · exact hu.raise_eq h _ _
  · exact hk _

theorem wrapArith_eq (f : Int → Int → Int) (r1 r2 r3 : Byte) :
    mapNext u (wrapArith op f r1 r2 r3 s) = mapNext u (wrapArith op f r1 r2 r3 s') := by
  unfold wrapArith
  rw [hu.pc_eq h]
  refine hu.withReg3_eq (hu.advance_eq h 4) fun a b d => congrArg Host.Outcome.next ?_
  rw [hu.reg_eq h, hu.reg_eq h]
  exact hu.setReg d _ (hu.advance_eq h 4)

theorem execDiv_eq (r1 r2 r3 : Byte) : mapNext u (execDiv r1 r2 r3 s) = mapNext u (execDiv r1 r2 r3 s') := by
  unfold execDiv
  rw [hu.pc_eq h]
  refine hu.withReg3_eq (hu.advance_eq h 4) fun a b d => ?_
  rw [hu.reg_eq h, hu.reg_eq h]
  dsimp only
  split
  · exact hu.raise_eq (hu.advance_eq h 4) _ _
  split
  · exact hu.raise_eq (hu.advance_eq h 4) _ _
  · exact congrArg Host.Outcome.next (hu.setRem _ (hu.setReg d _ (hu.advance_eq h 4)))

theorem compareRegs_eq (f : Int → Int → Bool) (r1 r2 : Byte) :
    mapNext u (compareRegs op f r1 r2 s) = mapNext u (compareRegs op f r1 r2 s') := by
  unfold compareRegs
  rw [hu.pc_eq h]
  refine hu.withReg2_eq (hu.advance_eq h 4) fun a b => congrArg Host.Outcome.next ?_
  rw [hu.reg_eq h, hu.reg_eq h]
  exact hu.setEqf _ (hu.advance_eq h 4)

theorem execLoad_eq (r : Byte) (imm16 : Half) : mapNext u (execLoad r imm16 s) = mapNext u (execLoad r imm16 s') := by
  unfold execLoad
  rw [hu.pc_eq h]
  exact hu.withReg_eq (hu.advance_eq h 4) fun d => congrArg Host.Outcome.next (hu.setReg d _ (hu.advance_eq h 4))

theorem execJmp_eq (r : Byte) : mapNext u (execJmp r s) = mapNext u (execJmp r s') := by
  unfold execJmp
  rw [hu.pc_eq h]
  exact hu.withReg_eq (hu.advance_eq h 2) fun j => hu.withJumpOperand_eq (hu.advance_eq h 2) fun v =>
    congrArg Host.Outcome.next (hu.setPc _ h)

theorem execJmpf_eq (r : Byte) : mapNext u (execJmpf r s) = mapNext u (execJmpf r s') := by
  unfold execJmpf
  rw [hu.pc_eq h]
  exact hu.withReg_eq (hu.advance_eq h 2) fun j => hu.withJumpOperand_eq (hu.advance_eq h 2) fun v =>
    congrArg Host.Outcome.next (hu.advance_eq (hu.advance_eq h 2) v)

theorem execJmpb_eq (r : Byte) : mapNext u (execJmpb r s) = mapNext u (execJmpb r s') := by
  unfold execJmpb
  rw [hu.pc_eq h, hu.pc_eq (hu.advance_eq h 2)]
  refine hu.withReg_eq (hu.advance_eq h 2) fun j => hu.withJumpOperand_eq (hu.advance_eq h 2) fun v => ?_
  split
  · exact hu.raise_eq (hu.advance_eq h 2) _ _
  · exact congrArg Host.Outcome.next (hu.setPc _ h)

theorem condJump_eq (taken : Bool) (r : Byte) :
    mapNext u (condJump op taken r s) = mapNext u (condJump op taken r s') := by
  unfold condJump
  rw [hu.pc_eq h]
  refine hu.withReg_eq (hu.advance_eq h 2) fun j => ?_
  split
  · exact hu.withJumpOperand_eq (hu.advance_eq h 2) fun v => congrArg Host.Outcome.next (hu.setPc _ h)
  · exact congrArg Host.Outcome.next (hu.advance_eq h 2)

/-- What an erasure forgets, no instruction reads; `eqf` only the conditional jumps (R28, R29). -/
theorem exec_eq (he : isCondJump i = false ∨ s.eqf = s'.eqf) : mapNext u (exec i s) = mapNext u (exec i s') := by
  cases i with
  | hlt => exact congrArg Host.Outcome.next (hu.halt (hu.advance_eq h 1))
  | load r imm16 => exact hu.execLoad_eq h r imm16
  | add r1 r2 r3 | sub r1 r2 r3 | mul r1 r2 r3 => exact hu.wrapArith_eq h _ r1 r2 r3
  | div r1 r2 r3 => exact hu.execDiv_eq h r1 r2 r3
  | jmp r => exact hu.execJmp_eq h r
  | jmpf r => exact hu.execJmpf_eq h r
  | jmpb r => exact hu.execJmpb_eq h r
  | eq r1 r2 | neq r1 r2 | gt r1 r2 | lt r1 r2 | gteq r1 r2 | lteq r1 r2 => exact hu.compareRegs_eq h _ r1 r2
  | jeq r | jneq r =>
    have heqf : s.eqf = s'.eqf := he.resolve_left (by simp [isCondJump])
    simp only [exec, execJeq, execJneq, heqf]
    exact hu.condJump_eq h _ r
  | illegal b =>
    simp only [exec, execIllegal, hu.pc_eq h]
    exact hu.raise_eq (hu.advance_eq h 1) _ _

end Erasure

/-- A comparison that completes overwrites `eqf` without reading it (R28, R150 to R155). -/
theorem compareRegs_setEqf {op : Byte} {f : Int → Int → Bool} {r1 r2 : Byte} (e : Bool)
    (h : compareRegs op f r1 r2 s = .next t) (ht : t.status ≠ .faulted) :
    compareRegs op f r1 r2 (s.setEqf e) = .next t := by
  obtain ⟨a, b, rfl, rfl, -⟩ := withReg2_completes h ht
  rw [compareRegs_regByte] at h ⊢
  exact h

/-- Settles O33: the first clause by the effect, the second by the one meaning the six comparisons share, the third by
forgetting `eqf`, which every instruction but the conditional jumps respects. -/
theorem eqfIsWrittenOnlyByComparisonsAndReadOnlyByJeqJneq :
    Obligations.EqfIsWrittenOnlyByComparisonsAndReadOnlyByJeqJneq := by
  refine ⟨fun i s t hx => (exec_effect hx).isComparison_of_eqf_ne, fun i s t e hc hx ht => ?overwrites,
    fun i s t e hj hx => ?ignores, rfl⟩
  case overwrites =>
    cases i with
    | eq | neq | gt | lt | gteq | lteq => exact compareRegs_setEqf e hx ht
    | _ => simp [isComparison] at hc
  case ignores =>
    have herase : mapNext (State.setEqf · false) (exec i (s.setEqf e)) = .next (t.setEqf false) := by
      rw [erasure_eqf.exec_eq (s := s.setEqf e) (s' := s) rfl (.inl hj), hx]
      rfl
    obtain ⟨t', hx', ht'⟩ := mapNext_eq_next.mp herase
    have hts : t' = t.setEqf t'.eqf := (congrArg (State.setEqf · t'.eqf) ht' :)
    exact ⟨t'.eqf, hts ▸ hx'⟩

/-- No STEP reads `rem` (R29). -/
theorem step_of_setRem_eq (h : s.setRem 0 = s'.setRem 0) :
    mapNext (State.setRem · 0) (step s) = mapNext (State.setRem · 0) (step s') := by
  have hpc : s.pc = s'.pc := erasure_rem.pc_eq h
  have hprog : s.prog = s'.prog := (congrArg State.prog h :)
  have hstatus : s.status = s'.status := (congrArg State.status h :)
  have hfetch : s.fetch = s'.fetch := fetch_congr hpc fun a => by rw [hprog]
  unfold step cycle
  rw [hstatus, hfetch]
  split
  · split
    · exact erasure_rem.exec_eq h (.inr (congrArg State.eqf h :))
    · rw [fetchPastEnd, fetchPastEnd, hpc]
      exact erasure_rem.raise_eq h _ _
    · rw [operandPastEnd, operandPastEnd, hpc]
      exact erasure_rem.raise_eq (erasure_rem.advance_eq h _) _ _
  all_goals exact congrArg Host.Outcome.next h

/-- No RUN reads `rem`, by induction on the fuel (R29, R108). -/
theorem runFuel_of_setRem_eq : ∀ (n : Nat) {s s' : State}, s.setRem 0 = s'.setRem 0 →
    (HostOp.runFuel n s).map (State.setRem · 0) = (HostOp.runFuel n s').map (State.setRem · 0)
  | 0, _, _, _ => rfl
  | n + 1, s, s', h => by
    have hstep := step_of_setRem_eq h
    unfold HostOp.runFuel
    cases ht : step s with
    | next t =>
      rw [ht] at hstep
      obtain ⟨t', ht', herase⟩ := mapNext_eq_next.mp hstep.symm
      have hgo : HostOp.continues t' = HostOp.continues t := (congrArg HostOp.continues herase :)
      simp only [ht', hgo]
      split
      · exact runFuel_of_setRem_eq n herase.symm
      · exact congrArg some herase.symm
    | fault r => exact nomatch r
    | refused x =>
      rw [ht] at hstep
      simp only [mapNext_eq_refused.mp hstep.symm]

/-- Settles O37: RUN from states alike but for `rem`, by `runFuel_of_setRem_eq`; the writer of `rem`, by what a STEP can
do. -/
theorem remIsNeverRead : Obligations.RemIsNeverRead := by
  refine ⟨fun n s v => runFuel_of_setRem_eq n rfl, fun s t hstep hne => ?_⟩
  obtain ⟨-, rfl⟩ | ⟨-, -, rfl⟩ | ⟨op, n, -, -, rfl⟩ | ⟨i, rest, hr, hf, hx⟩ := step_cases hstep
  iterate 3 exact absurd rfl hne
  obtain ⟨hop, hst⟩ := (exec_effect hx).div_of_rem_ne hne
  exact ⟨hr, hop ▸ read_of_fetch_ok hf, hst.trans hr⟩

end Sys2Proof.Machine
end

section
/-! The family `10_state.md`: RESET and the views. -/

namespace Sys2Proof.Machine

/-- Settles O42: RESET answers `State.reset` in every state, whose registers are zero. -/
theorem resetZeroesRegistersAndPc : Obligations.ResetZeroesRegistersAndPc :=
  fun _ => ⟨State.reset_reg, rfl, rfl⟩

/-- Two values of `status` with the same code are the same (R30). -/
theorem Status.code_inj {a b : Status} : a.code = b.code ↔ a = b := by
  cases a <;> cases b <;> decide

/-- Settles O47: every view is the field itself, `eqf` as one bit and `status` as its code. -/
theorem viewsShowTheStateAsItStands : Obligations.ViewsShowTheStateAsItStands := by
  intro s
  have heqf : BitVec.ofBool s.eqf = if s.eqf then 1 else 0 := by cases s.eqf <;> rfl
  exact ⟨fun _ => rfl, rfl, heqf, rfl, rfl, rfl, rfl, Status.code_inj (b := .running), Status.code_inj (b := .halted),
    Status.code_inj (b := .faulted)⟩

end Sys2Proof.Machine
end

section
/-! The family `20_memory.md`, first part: the decoder reads an instruction's bytes and nothing after them, so bytes
appended to a program do not change what is fetched from it. -/

namespace Sys2Proof

open Laws Machine

variable {bs rest : List Byte} {i : Instr}

/-- Every instruction decodes back from its bytes, whatever follows them (R60); only LOAD's immediate and ILLEGAL's byte
have something to prove. -/
theorem roundTrip (i : Instr) : RoundTrip.Statement i := by
  cases i with
  | load r imm16 => exact RoundTrip.load r imm16
  | illegal b => exact RoundTrip.illegal b
  | _ => exact fun _ _ => rfl

/-- The decoder answers ILLEGAL only for a byte that is no opcode (R67). -/
theorem illegalOpcode_of_decode {b : Byte} (h : decode bs = .ok (.illegal b) rest) : illegalOpcode b = true := by
  cases bs with
  | nil => simp [decode] at h
  | cons op bs =>
    obtain rfl : b = op := opcode_of_decode h
    unfold decode at h
    dsimp only at h
    split at h
    case h_1 => simp at h
    case h_2 =>
      obtain ⟨_, _, _, _, hi⟩ := operandsRI_ok h
      simp at hi
    case h_7 | h_8 | h_9 | h_16 | h_17 =>
      obtain ⟨_, _, hi⟩ := operandsR_ok h
      simp at hi
    case h_18 =>
      -- the match leaves every excluded code as an implication to `False`, which `omega` does not read
      simp only [imp_false] at *
      simp only [illegalOpcode, decide_eq_true_eq]
      omega
    all_goals
      obtain ⟨_, _, _, _, hi⟩ := operands3_ok h
      simp at hi

/-- Every decoded instruction meets the check that does not look at its register bytes. -/
theorem opcodeWf_of_decode (h : decode bs = .ok i rest) : i.opcodeWf = true := by
  cases i with
  | illegal b => exact illegalOpcode_of_decode h
  | _ => rfl

/-- More bytes after an instruction are left over, and the instruction is the same (R60). -/
theorem decode_append (h : decode bs = .ok i rest) (tail : List Byte) : decode (bs ++ tail) = .ok i (rest ++ tail) := by
  rw [eq_encode_of_decode h, List.append_assoc]
  exact roundTrip i (opcodeWf_of_decode h) (rest ++ tail)

/-- Settles O4, by the value of the two bytes joined. -/
theorem loadImmediateIsBigEndian : Obligations.LoadImmediateIsBigEndian :=
  fun _ hi lo _ => ⟨be16 hi lo, rfl, toNat_be16 hi lo⟩

end Sys2Proof
end

section
/-! The family `20_memory.md`: the program memory under ADD_BYTE, loading and READ_PROG. -/

namespace Sys2Proof.Machine

variable {s t : State} {m : Memory} {b : Byte}

/-- An address other than the appended byte's reads what it read (R43). -/
theorem Memory.read_append_of_ne (h : m.wf = true) {a : Nat} (ha : a ≠ m.len) : (m.append b).read a = m.read a := by
  cases hr : m.read a with
  | some v => exact Memory.read_append_of_some hr
  | none =>
    have hle : m.len ≤ a := (Memory.read_eq_none h a).mp hr
    rw [Memory.read_eq_none (Memory.append_wf h b), Memory.len_append]
    omega

/-- Below capacity ADD_BYTE appends (R43). -/
theorem addByte_of_lt (h : s.len < Config.progCap) : HostOp.addByte b s = .next (s.setProg (s.prog.append b)) :=
  if_pos h

/-- At capacity ADD_BYTE is refused (R43). -/
theorem addByte_of_le (h : Config.progCap ≤ s.len) : HostOp.addByte b s = .refused .programFull :=
  if_neg (Nat.not_lt.mpr h)

/-- Settles O44: the two branches of ADD_BYTE; of the state it answers only the program differs, and of the program only
the address `len`. -/
theorem addByteAppendsOrIsRefused : Obligations.AddByteAppendsOrIsRefused := by
  intro b s hwf
  refine ⟨fun hlt => ⟨_, addByte_of_lt hlt, ?len, ?appended, ?others, fun _ => rfl, rfl, rfl, rfl, rfl, rfl, rfl, rfl⟩,
    addByte_of_le⟩
  case len => exact Memory.len_append s.prog b
  case appended => exact Memory.read_append_len hwf b
  case others => exact fun a ha => Memory.read_append_of_ne hwf ha

/-- Settles O46: in the canonical form the bytes are what the addresses read. -/
theorem readProgReturnsTheProgramBytes : Obligations.ReadProgReturnsTheProgramBytes :=
  fun s hwf => ⟨Memory.length_bytes s.prog, fun k => (Memory.read_eq hwf k).symm⟩

/-! ### Loading -/

/-- The program memory after the bytes `bs` were appended in order. -/
def Memory.appendAll (m : Memory) (bs : List Byte) : Memory := bs.foldl Memory.append m

theorem Memory.appendAll_wf (bs : List Byte) : ∀ {m : Memory}, m.wf = true → (m.appendAll bs).wf = true := by
  induction bs with
  | nil => exact id
  | cons b bs ih => exact fun h => ih (Memory.append_wf h b)

@[simp] theorem Memory.bytes_appendAll (bs : List Byte) : ∀ m : Memory, (m.appendAll bs).bytes = m.bytes ++ bs := by
  induction bs with
  | nil => exact fun m => (List.append_nil m.bytes).symm
  | cons b bs ih =>
    intro m
    calc ((m.append b).appendAll bs).bytes = (m.append b).bytes ++ bs := ih (m.append b)
      _ = m.bytes ++ b :: bs := by rw [Memory.bytes_append, List.append_assoc, List.singleton_append]

/-- Loading what there is room for appends it all and changes nothing else (R43, R212). -/
theorem load_of_fits (bs : List Byte) : ∀ {s : State}, s.len + bs.length ≤ Config.progCap →
    HostOp.load bs s = .next (s.setProg (s.prog.appendAll bs)) := by
  induction bs with
  | nil => exact fun _ => rfl
  | cons b bs ih =>
    intro s h
    rw [List.length_cons] at h
    have hb : HostOp.addByte b s = .next (s.setProg (s.prog.append b)) := addByte_of_lt (by omega)
    have hlen : (s.setProg (s.prog.append b)).len = s.len + 1 := Memory.len_append s.prog b
    rw [HostOp.load, hb]
    exact ih (by omega)

/-- Settles O45: a load from RESET leaves the empty program with the bytes appended to it. -/
theorem loadedProgramIsReadBack : Obligations.LoadedProgramIsReadBack := by
  intro bs hfit
  have hload : HostOp.load bs State.reset = .next (State.reset.setProg (Memory.appendAll [] bs)) :=
    load_of_fits bs ((Nat.zero_add _).trans_le hfit)
  have hbytes : (Memory.appendAll [] bs).bytes = bs := Memory.bytes_appendAll bs []
  refine ⟨_, hload, hbytes, ?len, fun k => ?byte, rfl⟩
  case len => rw [State.setProg_len, ← Memory.length_bytes, hbytes]
  case byte => rw [State.setProg_prog, Memory.read_eq (Memory.appendAll_wf bs rfl), hbytes]

end Sys2Proof.Machine
end

section
/-! The family `20_memory.md`: instructions and STEPs against the program memory. -/

namespace Sys2Proof.Machine

variable {s t : State} {i : Instr}

/-! ### What is not written -/

/-- No instruction writes the program memory (R42). -/
theorem Effect.prog_eq (he : Effect i s t) : t.prog = s.prog := by
  cases he with
  | fault | writeReg | divide | writeFlag | jump | halt => rfl

/-- No STEP writes the program memory (R42). -/
theorem prog_of_step (h : step s = .next t) : t.prog = s.prog := by
  obtain ⟨-, rfl⟩ | ⟨-, -, rfl⟩ | ⟨op, n, -, -, rfl⟩ | ⟨i, rest, -, -, hx⟩ := step_cases h
  · rfl
  · rfl
  · rfl
  · exact (exec_effect hx).prog_eq

/-- Settles O35, operation by operation: the instruction, the STEP, ADD_BYTE, the append it makes, RESET. -/
theorem programMemoryIsWrittenOnlyByTheHost : Obligations.ProgramMemoryIsWrittenOnlyByTheHost := by
  refine ⟨fun i s t hx => (exec_effect hx).prog_eq, fun s t => prog_of_step, fun b s t h => (addByte_next h).2,
    fun b v m a hv => ⟨Memory.read_append_of_some hv, ?grows⟩, fun s => ⟨rfl, Memory.read_nil⟩⟩
  case grows =>
    rw [Memory.len_append]
    exact Nat.lt_succ_self m.len

/-! ### What is not read

An instruction never reads the program memory: forgetting it is an erasure. What a STEP fetches from it stays as it was
when bytes are appended. -/

/-- Forgetting the program memory is an erasure. -/
theorem erasure_prog : Erasure (State.setProg · []) where
  pc _ := rfl
  reg _ _ := rfl
  setReg d v h := congrArg (State.setReg · d v) h
  setPc v h := congrArg (State.setPc · v) h
  setEqf b h := congrArg (State.setEqf · b) h
  setRem v h := congrArg (State.setRem · v) h
  halt h := congrArg State.halt h
  enterFault c op ipc h := congrArg (State.enterFault · c op ipc) h

/-- An instruction does the same over any program memory (R42). -/
theorem exec_setProg (h : exec i s = .next t) (m : Memory) : exec i (s.setProg m) = .next (t.setProg m) := by
  have herase : mapNext (State.setProg · []) (exec i (s.setProg m)) = .next (t.setProg []) := by
    rw [erasure_prog.exec_eq (s := s.setProg m) (s' := s) rfl (.inr rfl), h]
    rfl
  obtain ⟨t', hx, ht⟩ := mapNext_eq_next.mp herase
  have hprog : t'.prog = m := (exec_effect hx).prog_eq
  have htm : t' = t.setProg t'.prog := (congrArg (State.setProg · t'.prog) ht :)
  rw [hx, htm, hprog]

/-- Appending a byte leaves the bytes that a fetch saw, and can only add to them (R41, R42). -/
theorem Memory.bytesFrom_prefix_append (m : Memory) (b : Byte) :
    ∀ n a : Nat, m.bytesFrom a n <+: (m.append b).bytesFrom a n
  | 0, _ => List.nil_prefix
  | n + 1, a => by
    cases hr : m.read a with
    | none =>
      rw [Memory.bytesFrom_nil hr]
      exact List.nil_prefix
    | some v =>
      rw [Memory.bytesFrom_cons hr, Memory.bytesFrom_cons (Memory.read_append_of_some hr)]
      exact List.cons_prefix_cons.mpr ⟨rfl, Memory.bytesFrom_prefix_append m b n (a + 1)⟩

/-- An instruction that is all there is fetched also with a byte appended to the program. -/
theorem fetch_append {rest : List Byte} (h : s.fetch = .ok i rest) (b : Byte) :
    ∃ rest', (s.setProg (s.prog.append b)).fetch = .ok i rest' := by
  obtain ⟨tail, htail⟩ := Memory.bytesFrom_prefix_append s.prog b maxInstrBytes (u32 s.pc)
  have hbytes : (s.setProg (s.prog.append b)).fetchBytes = s.fetchBytes ++ tail := htail.symm
  exact ⟨rest ++ tail, by rw [State.fetch, hbytes, decode_append h]⟩

/-- A STEP of a terminal engine answers the same state (R102). -/
theorem step_of_terminal (h : s.status ≠ .running) : step s = .next s := by
  unfold step
  split
  · exact absurd ‹_› h
  · rfl
  · rfl

/-- Where a STEP does not run past the end, appending a byte first does not change what it does (R50, R53). -/
theorem step_append (h : step s = .next t) (hend : s.status = .running → t.fcause ≠ 2 ∧ t.fcause ≠ 3) (b : Byte) :
    step (s.setProg (s.prog.append b)) = .next (t.setProg (t.prog.append b)) := by
  obtain ⟨hs, rfl⟩ | ⟨hr, -, rfl⟩ | ⟨op, n, hr, -, rfl⟩ | ⟨i, rest, hr, hf, hx⟩ := step_cases h
  · exact step_of_terminal hs
  · exact absurd rfl (hend hr).1
  · exact absurd rfl (hend hr).2
  · obtain ⟨rest', hf'⟩ := fetch_append hf b
    rw [prog_of_step h, step_of_fetch (s := s.setProg (s.prog.append b)) hr hf']
    exact exec_setProg hx (s.prog.append b)

/-- Settles O48: the STEP by `step_append`; ADD_BYTE after the STEP finds the `len` it found before. -/
theorem addByteCommutesWithStep : Obligations.AddByteCommutesWithStep := by
  intro b s t hstep hend
  refine ⟨step_append hstep hend b, fun s' hadd => ?_⟩
  obtain ⟨hlt, hs'⟩ := addByte_next hadd
  have hlen : t.len = s.len := congrArg Memory.len (prog_of_step hstep)
  exact ⟨hs', addByte_of_lt (hlen.trans_lt hlt)⟩

end Sys2Proof.Machine
end

section
/-! The family `30_encoding.md`: decoding and encoding are inverse, and the opcode byte decides the instruction. -/

namespace Sys2Proof

open Machine

variable {i : Instr}

/-- Settles O2: the round trip of every instruction, and what decodes are an instruction's own bytes. -/
theorem decodeAndEncodeAreInverse : Obligations.DecodeAndEncodeAreInverse :=
  ⟨fun i rest hwf => roundTrip i hwf rest, fun _ _ _ h => ⟨eq_encode_of_decode h, opcodeWf_of_decode h⟩⟩

/-- Three bytes after the opcode byte are enough for every format (R61 to R65, R67). -/
theorem exists_decode_of_le_length (op : Byte) {rest : List Byte} (h : 3 ≤ rest.length) :
    ∃ i tail, decode (op :: rest) = .ok i tail := by
  match rest, h with
  | b1 :: b2 :: b3 :: tail, _ =>
    unfold decode
    dsimp only
    split <;> exact ⟨_, _, rfl⟩

/-- An instruction that meets `Instr.opcodeWf` is ILLEGAL exactly if its opcode byte is none of the 17 codes (R66, R67). -/
theorem isIllegal_iff_opcode (h : i.opcodeWf = true) :
    (∃ b, i = .illegal b) ↔ i.opcode.toNat = 6 ∨ 18 ≤ i.opcode.toNat := by
  cases i with
  | illegal b => simpa [Instr.opcodeWf, illegalOpcode, Instr.opcode] using h
  | _ => simp [Instr.opcode]

/-- The opcode byte gives the length: 1 for HLT and ILLEGAL, 2 for the R format, 4 for the rest (R66, R67). -/
theorem size_eq_of_opcode (h : i.opcodeWf = true) :
    i.size =
      if i.opcode.toNat = 0 ∨ i.opcode.toNat = 6 ∨ 18 ≤ i.opcode.toNat then 1
      else if i.opcode.toNat ∈ [7, 8, 9, 16, 17] then 2 else 4 := by
  cases i with
  | illegal b => exact (if_pos (.inr ((isIllegal_iff_opcode h).mp ⟨b, rfl⟩))).symm
  | _ => rfl

/-- Settles O3: three bytes are enough to decode, and what is decoded has that opcode byte and the length it gives. -/
theorem opcodeByteDecidesInstructionAndLength : Obligations.OpcodeByteDecidesInstructionAndLength := by
  intro op rest hlen
  obtain ⟨i, tail, hd⟩ := exists_decode_of_le_length op hlen
  have hwf : i.opcodeWf = true := opcodeWf_of_decode hd
  obtain rfl : i.opcode = op := opcode_of_decode hd
  exact ⟨i, tail, hd, rfl, isIllegal_iff_opcode hwf, eq_encode_of_decode hd,
    (length_encode i).trans (size_eq_of_opcode hwf)⟩

/-! ### The immediate of LOAD as the assembler narrows it -/

/-- The narrowed literal, as a number, is the literal modulo 65536 (R80). -/
theorem toNat_narrow (n : Int) : ((Assembler.narrow n).toNat : Int) = n % 65536 := by
  rw [Assembler.narrow, BitVec.toNat_ofInt]
  omega

/-- A zero-extended immediate keeps its number (R9, R69). -/
theorem u32_zext32_half (v : Half) : u32 (zext32 v) = v.toNat :=
  BitVec.toNat_setWidth_of_le (by decide)

/-- A zero-extended immediate is not negative (R69). -/
theorem s32_zext32_half (v : Half) : s32 (zext32 v) = v.toNat := by
  have hlt : 2 * u32 (zext32 v) < 2 ^ 32 := by
    rw [u32_zext32_half]
    omega
  rw [← u32_zext32_half]
  exact BitVec.toInt_eq_toNat_of_lt hlt

/-- Register `d` written on the way past a 4-byte instruction is the only one, and only it and `pc` change (R120, R130 to
R132). -/
theorem writesOnlyReg_setReg (d : Fin 32) (v : Word) (s : State) :
    WritesOnlyReg d s ((s.advance 4).setReg d v) where
  regs _ hj := State.setReg_reg_ne _ v hj
  pc := rfl
  eqf := rfl
  rem := rfl
  control := ⟨rfl, rfl, rfl, rfl, rfl, fun _ => rfl⟩

/-- LOAD into a register completes (R120). -/
theorem exec_load_regByte (d : Fin 32) (imm : Half) (s : State) :
    exec (.load (regByte d) imm) s = .next ((s.advance 4).setReg d (zext32 imm)) :=
  withReg_regByte d _

/-- Settles O13: the register holds the zero-extended immediate, which is the literal modulo 65536. -/
theorem loadOfNarrowedLiteralIsItsValueMod65536 : Obligations.LoadOfNarrowedLiteralIsItsValueMod65536 := by
  intro d n s
  refine ⟨_, exec_load_regByte d (Assembler.narrow n) s, ?unsigned, ?signed, writesOnlyReg_setReg d _ s⟩
  case unsigned => rw [State.setReg_reg_same, u32_zext32_half, toNat_narrow]
  case signed => rw [State.setReg_reg_same, s32_zext32_half, toNat_narrow]

end Sys2Proof
end

section
/-! The family `30_encoding.md`: what the assembler answers for a line, and for the lines of a text. -/

namespace Sys2Proof.Assembler

open Machine

variable {n : Nat} {i : Instr} {b : Byte} {toks : List (List Char)}

/-! ### The instruction of a line -/

/-- The encoder's check answers the byte of an index below 32, and nothing else (R68, R76). -/
theorem registerByte_eq_ok : registerByte n = .ok b ↔ b.toNat = n ∧ regOk b = true := by
  unfold registerByte regOk
  rw [decide_eq_true_eq]
  split
  next hn =>
    have hnat : (BitVec.ofNat 8 n).toNat = n := Nat.mod_eq_of_lt (by omega)
    rw [Except.ok.injEq, ← BitVec.toNat_inj, hnat]
    omega
  next hn =>
    simp only [reduceCtorEq, false_iff]
    omega

/-- What is read on with a register byte is read on with one that names a register. -/
theorem bind_registerByte_ok {f : Byte → Except LineError Instr} (h : (registerByte n).bind f = .ok i) :
    ∃ b, regOk b = true ∧ f b = .ok i := by
  cases hb : registerByte n with
  | error e =>
    rw [hb] at h
    cases h
  | ok b =>
    rw [hb] at h
    exact ⟨b, (registerByte_eq_ok.mp hb).2, h⟩

theorem map_registerByte_ok {f : Byte → Instr} (h : (registerByte n).map f = .ok i) :
    ∃ b, regOk b = true ∧ f b = i := by
  have hbind : (registerByte n).bind (fun b => .ok (f b)) = .ok i := by
    rw [← h]
    cases registerByte n <;> rfl
  obtain ⟨b, hb, hf⟩ := bind_registerByte_ok hbind
  exact ⟨b, hb, Except.ok.inj hf⟩

/-- What the signature "register" accepts (R78). -/
theorem oneRegister_ok {mk : Byte → Instr} (h : oneRegister mk toks = .ok i) : ∃ b, regOk b = true ∧ i = mk b := by
  unfold oneRegister at h
  split at h
  · split at h
    · obtain ⟨b, hb, rfl⟩ := map_registerByte_ok h
      exact ⟨b, hb, rfl⟩
    · cases h
  · cases h

/-- What the signature "register, integer" accepts (R78). -/
theorem registerInteger_ok {mk : Byte → Half → Instr} (h : registerInteger mk toks = .ok i) :
    ∃ b v, regOk b = true ∧ i = mk b v := by
  unfold registerInteger at h
  split at h
  · split at h
    · obtain ⟨b, hb, rfl⟩ := map_registerByte_ok h
      exact ⟨b, _, hb, rfl⟩
    · cases h
  · cases h

/-- What the signature "register, register" accepts, with spare byte 0 (R78, R81). -/
theorem twoRegisters_ok {mk : Byte → Byte → Byte → Instr} (h : twoRegisters mk toks = .ok i) :
    ∃ b1 b2, regOk b1 = true ∧ regOk b2 = true ∧ i = mk b1 b2 0 := by
  unfold twoRegisters at h
  split at h
  · split at h
    · obtain ⟨b1, hb1, h⟩ := bind_registerByte_ok h
      obtain ⟨b2, hb2, rfl⟩ := map_registerByte_ok h
      exact ⟨b1, b2, hb1, hb2, rfl⟩
    · cases h
  · cases h

/-- What the signature "register, register, register" accepts (R78). -/
theorem threeRegisters_ok {mk : Byte → Byte → Byte → Instr} (h : threeRegisters mk toks = .ok i) :
    ∃ b1 b2 b3, regOk b1 = true ∧ regOk b2 = true ∧ regOk b3 = true ∧ i = mk b1 b2 b3 := by
  unfold threeRegisters at h
  split at h
  · split at h
    · obtain ⟨b1, hb1, h⟩ := bind_registerByte_ok h
      obtain ⟨b2, hb2, h⟩ := bind_registerByte_ok h
      obtain ⟨b3, hb3, rfl⟩ := map_registerByte_ok h
      exact ⟨b1, b2, b3, hb1, hb2, hb3, rfl⟩
    · cases h
  · cases h

/-- What the assembler may emit: a well-formed instruction that is not ILLEGAL, a comparison with spare byte 0 (R76, R80,
R81, R172). -/
structure Emittable (i : Instr) : Prop where
  wf : i.wf = true
  not_illegal : ∀ b, i ≠ .illegal b
  spare : isComparison i = true → ∃ op b1 b2, encode i = [op, b1, b2, 0x00]

/-- Whatever tokens are read as, the assembler may emit: by the mnemonic, then by the signature it selects. -/
theorem emittable_of_instruction (h : instruction toks = .ok i) : Emittable i := by
  unfold instruction at h
  split at h
  · cases h
  split at h
  case h_1 =>
    cases h
    exact ⟨rfl, by simp, by simp [isComparison]⟩
  case h_2 =>
    obtain ⟨b, v, hb, rfl⟩ := registerInteger_ok h
    exact ⟨by simp [Instr.wf, Instr.regBytes, Instr.opcodeWf, hb], by simp, by simp [isComparison]⟩
  case h_3 | h_4 | h_5 | h_6 =>
    obtain ⟨b1, b2, b3, hb1, hb2, hb3, rfl⟩ := threeRegisters_ok h
    exact ⟨by simp [Instr.wf, Instr.regBytes, Instr.opcodeWf, hb1, hb2, hb3], by simp, by simp [isComparison]⟩
  case h_7 | h_8 | h_9 | h_16 | h_17 =>
    obtain ⟨b, hb, rfl⟩ := oneRegister_ok h
    exact ⟨by simp [Instr.wf, Instr.regBytes, Instr.opcodeWf, hb], by simp, by simp [isComparison]⟩
  case h_18 => cases h
  all_goals
    obtain ⟨b1, b2, hb1, hb2, rfl⟩ := twoRegisters_ok h
    exact ⟨by simp [Instr.wf, Instr.regBytes, Instr.opcodeWf, hb1, hb2], by simp, fun _ => ⟨_, b1, b2, rfl⟩⟩

/-- Settles O52, by the mnemonic and the signature of the line. -/
theorem assembledLineIsWellFormed : Obligations.AssembledLineIsWellFormed := by
  intro toks i h
  obtain ⟨hwf, hni, hspare⟩ := emittable_of_instruction h
  exact ⟨hwf, hni, hspare⟩

/-! ### The bytes of a text -/

/-- What the lines that are not blank are read as, in order (R74, R82). -/
def readings (ls : List (List Char)) : List (Except LineError Instr) :=
  ((ls.map tokens).filter (fun toks => toks ≠ [])).map instruction

/-- A blank line is passed over (R82). -/
theorem readings_cons_blank {l : List Char} (h : tokens l = []) (ls : List (List Char)) :
    readings (l :: ls) = readings ls := by
  simp [readings, h]

theorem readings_cons {l : List Char} (h : tokens l ≠ []) (ls : List (List Char)) :
    readings (l :: ls) = instruction (tokens l) :: readings ls := by
  simp [readings, h]

/-- Lines assemble without a report exactly if those that are not blank are all read as instructions, and then to those
instructions' bytes, end to end. By induction on the lines: a blank one, one that fails, one that is read. -/
theorem assembleFrom_eq_bytes (ls : List (List Char)) : ∀ (n : Nat) (bs : List Byte),
    assembleFrom n ls = (bs, []) ↔
      ∃ is : List Instr, readings ls = is.map Except.ok ∧ bs = (is.map encode).flatten := by
  induction ls with
  | nil =>
    intro n bs
    constructor
    · rintro ⟨⟩
      exact ⟨[], rfl, rfl⟩
    · rintro ⟨is, hr, rfl⟩
      rw [List.map_eq_nil_iff.mp hr.symm]
      rfl
  | cons l ls ih =>
    intro n bs
    by_cases hblank : tokens l = []
    · rw [assembleFrom_blank hblank, readings_cons_blank hblank, ih]
    rw [readings_cons hblank]
    cases hi : instruction (tokens l) with
    | error e =>
      rw [assembleFrom_error hblank hi]
      constructor
      · rintro ⟨⟩
      · rintro ⟨is, hr, -⟩
        obtain ⟨_, _, -, hj, -⟩ := List.map_eq_cons_iff.mp hr.symm
        cases hj
    | ok i =>
      rw [assembleFrom_ok hblank hi]
      constructor
      · intro h
        obtain ⟨rfl, hnone⟩ := Prod.mk.inj h
        obtain ⟨is, hr, hbs⟩ := (ih (n + 1) _).mp (Prod.ext rfl hnone)
        exact ⟨i :: is, congrArg (Except.ok i :: ·) hr, congrArg (encode i ++ ·) hbs⟩
      · rintro ⟨is, hr, rfl⟩
        obtain ⟨j, js, rfl, hj, hjs⟩ := List.map_eq_cons_iff.mp hr.symm
        cases hj
        rw [(ih (n + 1) _).mpr ⟨js, hjs.symm, rfl⟩]
        rfl

/-- Settles O54: the bytes by the induction on the lines; each instruction is what some line's tokens are read as. -/
theorem assembledProgramIsItsInstructionsEndToEnd : Obligations.AssembledProgramIsItsInstructionsEndToEnd := by
  refine fun src => ⟨fun bs => assemble_eq_bytes.trans (assembleFrom_eq_bytes (lines src) 1 bs), fun is hr i hi => ?_⟩
  have hmem : Except.ok i ∈ is.map (Except.ok (ε := LineError)) := List.mem_map_of_mem hi
  rw [← hr] at hmem
  obtain ⟨toks, -, htoks⟩ := List.mem_map.mp hmem
  obtain ⟨hwf, hni, -⟩ := emittable_of_instruction htoks
  exact ⟨hwf, hni⟩

end Sys2Proof.Assembler
end

section
/-! The family `30_encoding.md`: a line for every instruction that the assembler may emit. -/

namespace Sys2Proof.Assembler

open Machine

variable {i : Instr} {b b1 b2 b3 : Byte}

/-! ### Numbers as decimal digits -/

theorem isSpace_of_isDigit {c : Char} (h : c.isDigit = true) : isSpace c = false := by
  simp only [isSpace, Bool.or_eq_false_iff, decide_eq_false_iff_not]
  refine ⟨⟨⟨⟨?_, ?_⟩, ?_⟩, ?_⟩, ?_⟩ <;>
  · rintro rfl
    exact absurd h (by decide)

theorem toLower_of_isDigit {c : Char} (h : c.isDigit = true) : c.toLower = c := by
  apply Char.toLower_eq_of_not_isUpper
  simp only [Char.isDigit, Char.isUpper, Bool.and_eq_true, decide_eq_true_eq, ge_iff_le, UInt32.le_iff_toNat_le] at h ⊢
  have hA : 'A'.val.toNat = 65 := rfl
  have h9 : '9'.val.toNat = 57 := rfl
  omega

theorem isDigit_of_mem_toDigits {n : Nat} {c : Char} (h : c ∈ Nat.toDigits 10 n) : c.isDigit = true :=
  Nat.isDigit_of_mem_toDigits (by decide) (by decide) h

/-- The decimal digits of a number spell it (R76, R77). -/
theorem digits_toDigits (n : Nat) : digits (Nat.toDigits 10 n) = some n := by
  have hvalue : (Nat.toDigits 10 n).foldl (fun n c => n * 10 + (c.toNat - 48)) 0 = n := by
    simp only [Nat.mul_comm _ 10]
    exact Nat.ofDigitChars_toDigits (by decide) (by decide)
  rw [digits, if_neg (by simp [Nat.toDigits_ne_nil]),
    if_pos (List.all_eq_true.mpr fun c hc => isDigit_of_mem_toDigits hc), hvalue]

/-- A sigil and the digits of a number are one token. -/
theorem isToken_cons_toDigits {c : Char} (hc : isSpace c = false ∧ c.toLower = c) (n : Nat) :
    IsToken (c :: Nat.toDigits 10 n) := by
  refine ⟨List.cons_ne_nil _ _, fun d hd => ?_⟩
  obtain rfl | hd := List.mem_cons.mp hd
  · exact hc
  · have hdigit := isDigit_of_mem_toDigits hd
    exact ⟨isSpace_of_isDigit hdigit, toLower_of_isDigit hdigit⟩

/-! ### The tokens of an instruction -/

/-- The mnemonic of an instruction (R75). ILLEGAL has none: its name is a token that the assembler does not read. -/
def mnemonic : Instr → List Char
  | .hlt => ['h', 'l', 't']
  | .load _ _ => ['l', 'o', 'a', 'd']
  | .add _ _ _ => ['a', 'd', 'd']
  | .sub _ _ _ => ['s', 'u', 'b']
  | .mul _ _ _ => ['m', 'u', 'l']
  | .div _ _ _ => ['d', 'i', 'v']
  | .jmp _ => ['j', 'm', 'p']
  | .jmpf _ => ['j', 'm', 'p', 'f']
  | .jmpb _ => ['j', 'm', 'p', 'b']
  | .eq _ _ _ => ['e', 'q']
  | .neq _ _ _ => ['n', 'e', 'q']
  | .gt _ _ _ => ['g', 't']
  | .lt _ _ _ => ['l', 't']
  | .gteq _ _ _ => ['g', 't', 'e', 'q']
  | .lteq _ _ _ => ['l', 't', 'e', 'q']
  | .jeq _ => ['j', 'e', 'q']
  | .jneq _ => ['j', 'n', 'e', 'q']
  | .illegal _ => ['i', 'l', 'l', 'e', 'g', 'a', 'l']

/-- A register operand: `$` and the register's number (R76). -/
def registerToken (b : Byte) : List Char := '$' :: Nat.toDigits 10 b.toNat

/-- An integer operand: `#` and the immediate's number, without a sign (R77). -/
def integerToken (v : Half) : List Char := '#' :: Nat.toDigits 10 v.toNat

/-- The operands of an instruction, in the order of its operand bytes (R74, R78). -/
def operandTokens : Instr → List (List Char)
  | .load r imm16 => [registerToken r, integerToken imm16]
  | i => i.regBytes.map registerToken

/-- The tokens of an instruction's line. -/
def spelling (i : Instr) : List (List Char) := mnemonic i :: operandTokens i

theorem isToken_mnemonic (i : Instr) : IsToken (mnemonic i) := by
  have hne : mnemonic i ≠ [] := by cases i <;> exact List.cons_ne_nil _ _
  have hall : (mnemonic i).all (fun c => !isSpace c && c.toLower = c) = true := by cases i <;> rfl
  exact ⟨hne, by simpa using hall⟩

theorem isToken_registerToken (b : Byte) : IsToken (registerToken b) := isToken_cons_toDigits (by decide) b.toNat

theorem isToken_integerToken (v : Half) : IsToken (integerToken v) := isToken_cons_toDigits (by decide) v.toNat

theorem isToken_of_mem_spelling {w : List Char} (h : w ∈ spelling i) : IsToken w := by
  obtain rfl | h := List.mem_cons.mp h
  · exact isToken_mnemonic i
  cases i with
  | load r imm16 =>
    obtain rfl | rfl : w = registerToken r ∨ w = integerToken imm16 := by simpa [operandTokens] using h
    · exact isToken_registerToken r
    · exact isToken_integerToken imm16
  | _ =>
    obtain ⟨b, -, rfl⟩ := List.mem_map.mp h
    exact isToken_registerToken b

/-! ### The tokens of an instruction are read as it -/

@[simp] theorem register_registerToken (b : Byte) : register (registerToken b) = some b.toNat := digits_toDigits b.toNat

/-- An unsigned literal of 16 bits is its number: its first character is a digit, so no sign (R77). -/
@[simp] theorem integer_integerToken (v : Half) : integer (integerToken v) = some (v.toNat : Int) := by
  have hrange : inRange32 (v.toNat : Int) = some (v.toNat : Int) := if_pos (by omega)
  unfold integer
  split
  next h =>
    have hmem : '-' ∈ Nat.toDigits 10 v.toNat := by simp [(List.cons.inj h).2]
    exact absurd (isDigit_of_mem_toDigits hmem) (by decide)
  next h =>
    have hmem : '+' ∈ Nat.toDigits 10 v.toNat := by simp [(List.cons.inj h).2]
    exact absurd (isDigit_of_mem_toDigits hmem) (by decide)
  next h =>
    rw [← (List.cons.inj h).2, digits_toDigits]
    exact hrange
  next h => exact absurd rfl (h _)

/-- An immediate is the narrowing of its own number (R80). -/
@[simp] theorem narrow_toNat (v : Half) : narrow (v.toNat : Int) = v := by
  rw [narrow, BitVec.ofInt_natCast, BitVec.ofNat_toNat, BitVec.setWidth_eq]

theorem registerByte_toNat (h : regOk b = true) : registerByte b.toNat = .ok b := registerByte_eq_ok.mpr ⟨rfl, h⟩

theorem oneRegister_registerToken (mk : Byte → Instr) (h : ∀ b ∈ [b1], regOk b = true) :
    oneRegister mk [registerToken b1] = .ok (mk b1) := by
  simp [oneRegister, registerByte_toNat (h b1 (by simp)), Except.map]

theorem registerInteger_tokens (mk : Byte → Half → Instr) (h : ∀ b ∈ [b1], regOk b = true) (v : Half) :
    registerInteger mk [registerToken b1, integerToken v] = .ok (mk b1 v) := by
  simp [registerInteger, registerByte_toNat (h b1 (by simp)), Except.map]

theorem twoRegisters_registerTokens (mk : Byte → Byte → Byte → Instr) (h : ∀ b ∈ [b1, b2], regOk b = true) :
    twoRegisters mk [registerToken b1, registerToken b2] = .ok (mk b1 b2 0) := by
  simp [twoRegisters, registerByte_toNat (h b1 (by simp)), registerByte_toNat (h b2 (by simp)), Except.map, Except.bind]

theorem threeRegisters_registerTokens (mk : Byte → Byte → Byte → Instr) (h : ∀ b ∈ [b1, b2, b3], regOk b = true) :
    threeRegisters mk [registerToken b1, registerToken b2, registerToken b3] = .ok (mk b1 b2 b3) := by
  simp [threeRegisters, registerByte_toNat (h b1 (by simp)), registerByte_toNat (h b2 (by simp)),
    registerByte_toNat (h b3 (by simp)), Except.map, Except.bind]

theorem Emittable.regOk_of_mem (he : Emittable i) : ∀ b ∈ i.regBytes, regOk b = true :=
  List.all_eq_true.mp (Bool.and_eq_true_iff.mp he.wf).1

/-- The spare byte of a comparison that the assembler may emit is 0 (R81). -/
theorem Emittable.spare_eq_zero (he : Emittable i) (hc : isComparison i = true) {r1 r2 x : Byte}
    (ho : i.operandBytes = [r1, r2, x]) : x = 0 := by
  obtain ⟨op, b1, b2, h⟩ := he.spare hc
  rw [encode, ho] at h
  simpa using congrArg List.getLast? h

/-- The tokens of an instruction that the assembler may emit are read as it (R75, R78). -/
theorem instruction_spelling (he : Emittable i) : instruction (spelling i) = .ok i := by
  have hreg := he.regOk_of_mem
  cases i with
  | hlt => rfl
  | load r imm16 => exact registerInteger_tokens _ hreg imm16
  | add | sub | mul | div => exact threeRegisters_registerTokens _ hreg
  | jmp | jmpf | jmpb | jeq | jneq => exact oneRegister_registerToken _ hreg
  | eq | neq | gt | lt | gteq | lteq =>
    obtain rfl := he.spare_eq_zero rfl rfl
    exact twoRegisters_registerTokens _ hreg
  | illegal b => exact absurd rfl (he.not_illegal b)

/-! ### The line of an instruction -/

/-- Tokens with a space between them are cut apart again (R74). -/
theorem tokens_intercalate : ∀ {toks : List (List Char)}, (∀ w ∈ toks, IsToken w) →
    tokens ([' '].intercalate toks) = toks
  | [], _ => rfl
  | [w], h => by simpa using tokens_of_isToken (h w (by simp))
  | w :: w' :: ws, h => by
    have ih := tokens_intercalate (toks := w' :: ws) fun v hv => h v (List.mem_cons_of_mem w hv)
    rw [List.intercalate_cons_cons, List.append_assoc, List.singleton_append,
      tokens_append_space (h w List.mem_cons_self), ih]

/-- Tokens with a space between them hold no line feed. -/
theorem newline_not_mem_intercalate : ∀ {toks : List (List Char)}, (∀ w ∈ toks, IsToken w) →
    '\n' ∉ [' '].intercalate toks
  | [], _ => by simp
  | [w], h => by simpa using (h w (by simp)).newline_not_mem
  | w :: w' :: ws, h => by
    have ih := newline_not_mem_intercalate (toks := w' :: ws) fun v hv => h v (List.mem_cons_of_mem w hv)
    have hw : '\n' ∉ w := (h w List.mem_cons_self).newline_not_mem
    simp [List.intercalate_cons_cons, hw, ih]

/-- A text that is one line, read as an instruction, assembles to its bytes (R82). -/
theorem assemble_of_instruction {line : List Char} (hline : '\n' ∉ line) (h : instruction (tokens line) = .ok i) :
    assemble line = .bytes (encode i) := by
  have hne : tokens line ≠ [] := by
    intro hnil
    rw [hnil] at h
    cases h
  rw [assemble_eq_bytes, lines_of_not_mem hline, assembleFrom_ok hne h]
  simp [assembleFrom]

/-- Settles O53: the line is the instruction's tokens with a space between them. -/
theorem everyInstructionHasALine : Obligations.EveryInstructionHasALine := by
  intro i hwf hni hspare
  have htokens : tokens ([' '].intercalate (spelling i)) = spelling i :=
    tokens_intercalate fun _ => isToken_of_mem_spelling
  have hline : '\n' ∉ [' '].intercalate (spelling i) :=
    newline_not_mem_intercalate fun _ => isToken_of_mem_spelling
  have hread : instruction (tokens ([' '].intercalate (spelling i))) = .ok i :=
    (congrArg instruction htokens).trans (instruction_spelling ⟨hwf, hni, hspare⟩)
  exact ⟨_, hline, hread, assemble_of_instruction hline hread⟩

end Sys2Proof.Assembler
end

section
/-! The family `40_cycle.md`, first part: what a STEP does with what it fetches. -/

namespace Sys2Proof.Machine

variable {s t : State} {i : Instr}

/-! ### STEP by the status, and by what the fetch finds -/

theorem continues_eq_false : HostOp.continues t = false ↔ t.status ≠ .running := decide_eq_false_iff_not

theorem Status.ne_running {a : Status} : a ≠ .running ↔ a = .halted ∨ a = .faulted := by
  cases a <;> decide

/-- Settles O6: a terminal engine is not running, so its STEP is the terminal one. -/
theorem terminalStepChangesNothing : Obligations.TerminalStepChangesNothing := by
  intro s hs
  have hnr : s.status ≠ .running := Status.ne_running.mpr hs
  exact ⟨step_of_terminal hnr, continues_eq_false.mpr hnr⟩

/-- A running engine that finds no opcode byte takes PC_PAST_END (R103). -/
theorem step_of_fetch_noOpcode (hr : s.status = .running) (hf : s.fetch = .noOpcode) : step s = fetchPastEnd s := by
  simp only [step, cycle, hr, hf]

/-- A running engine that finds too few operand bytes takes OPERAND_PAST_END (R104). -/
theorem step_of_fetch_truncated {op : Byte} {n : Nat} (hr : s.status = .running) (hf : s.fetch = .operandPastEnd op n) :
    step s = operandPastEnd op n s := by
  simp only [step, cycle, hr, hf]

@[simp] theorem State.advance_zero (s : State) : s.advance 0 = s := by
  simp [State.advance, State.setPc]

/-- A fault raised before any byte was read leaves `pc` at the instruction (R191). -/
theorem faults_raise_here (c : Cause) (op : Byte) (s : State) : Faults (raise c op s.pc s) c.code op s.pc s := by
  simpa using faults_raise c op 0 s

/-- Settles O7: with no byte at `pc` the fetch finds no opcode, and the fault is raised on the state as it stands. -/
theorem fetchPastEndFaults : Obligations.FetchPastEndFaults := by
  intro s hr hread
  rw [step_of_fetch_noOpcode hr (fetch_of_none hread)]
  exact faults_raise_here .pcPastEnd 0 s

/-- No instruction is longer than a fetch (R60). -/
theorem length_encode_le (i : Instr) : (encode i).length ≤ maxInstrBytes := by
  rw [length_encode, maxInstrBytes]
  cases i <;> simp [Instr.size]

/-- Bytes at `pc` are there with fewer after them. -/
theorem BytesAtPc.of_append {bs cs : List Byte} (h : BytesAtPc s (bs ++ cs)) : BytesAtPc s bs := fun k hk => by
  rw [h k (by rw [List.length_append]; omega), List.getElem?_append_left hk]

/-- Settles O5: the bytes begin with the instruction's own, which is all that a fetch needs to see. -/
theorem stepRunsTheDecodedInstruction : Obligations.StepRunsTheDecodedInstruction := by
  intro s bs rest i hr hbytes hd
  rw [eq_encode_of_decode hd] at hbytes
  obtain ⟨tail, htail⟩ := take_bytesFrom (length_encode_le i) hbytes.of_append
  have hf : s.fetch = .ok i tail := by
    rw [State.fetch, State.fetchBytes, htail]
    exact roundTrip i (opcodeWf_of_decode hd) tail
  exact step_of_fetch hr hf

/-! ### A program that ends inside an instruction -/

/-- How many bytes of an instruction are consumed when only `k` of them are there: all of them, but LOAD's immediate
only as a whole (R104). -/
def consumedOf (i : Instr) (k : Nat) : Nat :=
  match i with
  | .load _ _ => min k 2
  | _ => k

theorem operandsR_take (mk : Byte → Instr) (op b1 : Byte) {k : Nat} (hk : k + 1 < 2) :
    operandsR mk op ([b1].take k) = .operandPastEnd op (k + 1) := by
  match k, hk with
  | 0, _ => rfl

theorem operandsRI_take (mk : Byte → Half → Instr) (op b1 b2 b3 : Byte) {k : Nat} (hk : k + 1 < 4) :
    operandsRI mk op ([b1, b2, b3].take k) = .operandPastEnd op (min (k + 1) 2) := by
  match k, hk with
  | 0, _ | 1, _ | 2, _ => rfl

theorem operands3_take (mk : Byte → Byte → Byte → Instr) (op b1 b2 b3 : Byte) {k : Nat} (hk : k + 1 < 4) :
    operands3 mk op ([b1, b2, b3].take k) = .operandPastEnd op (k + 1) := by
  match k, hk with
  | 0, _ | 1, _ | 2, _ => rfl

/-- A proper prefix of an instruction that holds its opcode byte does not decode (R104). -/
theorem decode_take_encode {k : Nat} (h1 : 1 ≤ k) (hk : k < i.size) :
    decode ((encode i).take k) = .operandPastEnd i.opcode (consumedOf i k) := by
  obtain ⟨k, rfl⟩ := Nat.exists_eq_add_of_le' h1
  rw [encode, List.take_succ_cons]
  cases i with
  | hlt | illegal => exact absurd hk (by simp [Instr.size])
  | load r imm16 => exact operandsRI_take _ _ _ _ _ hk
  | jmp | jmpf | jmpb | jeq | jneq => exact operandsR_take _ _ _ hk
  | _ => exact operands3_take _ _ _ _ _ hk

/-- Settles O8: a fetch sees just the bytes before the end, and they are a proper prefix of the instruction. -/
theorem truncatedInstructionFaults : Obligations.TruncatedInstructionFaults := by
  intro s i k hr h1 hk hends
  obtain ⟨hbytes, hend⟩ := hends
  have hlen : ((encode i).take k).length ≤ maxInstrBytes := (List.length_take_le' k _).trans (length_encode_le i)
  have hf : s.fetch = .operandPastEnd i.opcode (consumedOf i k) := by
    rw [State.fetch, State.fetchBytes, bytesFrom_of_end hlen hbytes hend]
    exact decode_take_encode h1 (length_encode i ▸ hk)
  rw [step_of_fetch_truncated hr hf]
  exact faults_raise .operandPastEnd i.opcode (consumedOf i k) s

end Sys2Proof.Machine
end

section
/-! The family `40_cycle.md`: a register byte of 32 or more, and the answer of every STEP. -/

namespace Sys2Proof.Machine

variable {s t : State} {op : Byte} {ipc : Word}

/-! ### Bad register bytes -/

variable {b b1 b2 b3 : Byte}

/-- A register byte after which everything raises REG_INDEX makes no difference. -/
theorem withReg_of_all_regIndex (b : Byte) {k : Fin 32 → Result} (hk : ∀ j, k j = raise .regIndex op ipc s) :
    withReg op ipc b s k = raise .regIndex op ipc s := by
  obtain hb | ⟨j, rfl⟩ := badReg_or_regByte b
  · exact withReg_of_badReg hb k
  · rw [withReg_regByte, hk]

theorem withReg_of_badReg_mem (hb : badReg b) (hm : b ∈ [b1]) (k : Fin 32 → Result) :
    withReg op ipc b1 s k = raise .regIndex op ipc s := by
  obtain rfl := List.mem_singleton.mp hm
  exact withReg_of_badReg hb k

theorem withReg2_of_badReg_mem (hb : badReg b) (hm : b ∈ [b1, b2]) (k : Fin 32 → Fin 32 → Result) :
    withReg2 op ipc b1 b2 s k = raise .regIndex op ipc s := by
  obtain rfl | hm := List.mem_cons.mp hm
  · exact withReg_of_badReg hb _
  · exact withReg_of_all_regIndex b1 fun j => withReg_of_badReg_mem hb hm (k j)

theorem withReg3_of_badReg_mem (hb : badReg b) (hm : b ∈ [b1, b2, b3]) (k : Fin 32 → Fin 32 → Fin 32 → Result) :
    withReg3 op ipc b1 b2 b3 s k = raise .regIndex op ipc s := by
  obtain rfl | hm := List.mem_cons.mp hm
  · exact withReg_of_badReg hb _
  · exact withReg_of_all_regIndex b1 fun j => withReg2_of_badReg_mem hb hm (k j)

/-- An instruction checks its register bytes before anything else, with `pc` past its bytes (R105, R189). -/
theorem exec_of_badReg {i : Instr} (hb : badReg b) (hm : b ∈ i.regBytes) :
    exec i s = raise .regIndex i.opcode s.pc (s.advance i.size) := by
  cases i with
  | hlt | illegal => exact absurd hm List.not_mem_nil
  | load | jmp | jmpf | jmpb | jeq | jneq => exact withReg_of_badReg_mem hb hm _
  | add | sub | mul | div => exact withReg3_of_badReg_mem hb hm _
  | eq | neq | gt | lt | gteq | lteq => exact withReg2_of_badReg_mem hb hm _

/-- Settles O9, by the order of an instruction's checks. -/
theorem badRegisterFieldFaults : Obligations.BadRegisterFieldFaults := by
  intro s i b hm hb
  rw [exec_of_badReg hb hm, length_encode]
  exact faults_raise .regIndex i.opcode i.size s

/-! ### Every STEP answers a next state -/

theorem withReg_answers (b : Byte) {k : Fin 32 → Result} (hk : ∀ j, ∃ t, k j = .next t) :
    ∃ t, withReg op ipc b s k = .next t := by
  obtain hb | ⟨j, rfl⟩ := badReg_or_regByte b
  · exact ⟨_, withReg_of_badReg hb k⟩
  · rw [withReg_regByte]
    exact hk j

theorem withReg2_answers (b1 b2 : Byte) {k : Fin 32 → Fin 32 → Result} (hk : ∀ j1 j2, ∃ t, k j1 j2 = .next t) :
    ∃ t, withReg2 op ipc b1 b2 s k = .next t :=
  withReg_answers b1 fun j1 => withReg_answers b2 (hk j1)

theorem withReg3_answers (b1 b2 b3 : Byte) {k : Fin 32 → Fin 32 → Fin 32 → Result}
    (hk : ∀ j1 j2 j3, ∃ t, k j1 j2 j3 = .next t) : ∃ t, withReg3 op ipc b1 b2 b3 s k = .next t :=
  withReg_answers b1 fun j1 => withReg2_answers b2 b3 (hk j1)

theorem withJumpOperand_answers (j : Fin 32) {k : Nat → Result} (hk : ∀ v, ∃ t, k v = .next t) :
    ∃ t, withJumpOperand op ipc j s k = .next t := by
  unfold withJumpOperand
  split
  · exact ⟨_, rfl⟩
  · exact hk _

theorem wrapArith_answers (f : Int → Int → Int) (r1 r2 r3 : Byte) : ∃ t, wrapArith op f r1 r2 r3 s = .next t :=
  withReg3_answers r1 r2 r3 fun _ _ _ => ⟨_, rfl⟩

theorem execDiv_answers (r1 r2 r3 : Byte) : ∃ t, execDiv r1 r2 r3 s = .next t :=
  withReg3_answers r1 r2 r3 fun a b d => by
    dsimp only
    split
    · exact ⟨_, rfl⟩
    split
    · exact ⟨_, rfl⟩
    · exact ⟨_, rfl⟩

theorem compareRegs_answers (f : Int → Int → Bool) (r1 r2 : Byte) : ∃ t, compareRegs op f r1 r2 s = .next t :=
  withReg2_answers r1 r2 fun _ _ => ⟨_, rfl⟩

theorem execJmpb_answers (r : Byte) : ∃ t, execJmpb r s = .next t :=
  withReg_answers r fun j => withJumpOperand_answers j fun v => by
    split
    · exact ⟨_, rfl⟩
    · exact ⟨_, rfl⟩

theorem condJump_answers (taken : Bool) (r : Byte) : ∃ t, condJump op taken r s = .next t :=
  withReg_answers r fun j => by
    cases taken with
    | true => exact withJumpOperand_answers j fun _ => ⟨_, rfl⟩
    | false => exact ⟨_, rfl⟩

/-- Every instruction answers a next state. -/
theorem exec_answers (i : Instr) (s : State) : ∃ t, exec i s = .next t := by
  cases i with
  | hlt | illegal => exact ⟨_, rfl⟩
  | load r => exact withReg_answers r fun _ => ⟨_, rfl⟩
  | add r1 r2 r3 | sub r1 r2 r3 | mul r1 r2 r3 => exact wrapArith_answers _ r1 r2 r3
  | div r1 r2 r3 => exact execDiv_answers r1 r2 r3
  | jmp r | jmpf r => exact withReg_answers r fun j => withJumpOperand_answers j fun _ => ⟨_, rfl⟩
  | jmpb r => exact execJmpb_answers r
  | eq r1 r2 | neq r1 r2 | gt r1 r2 | lt r1 r2 | gteq r1 r2 | lteq r1 r2 => exact compareRegs_answers _ r1 r2
  | jeq r | jneq r => exact condJump_answers _ r

/-- Settles O10, by the status and by what the fetch finds. -/
theorem everyStepAnswersANextState : Obligations.EveryStepAnswersANextState := by
  intro s
  by_cases hr : s.status = .running
  · match hf : s.fetch with
    | .ok i rest =>
      rw [step_of_fetch hr hf]
      exact exec_answers i s
    | .noOpcode => exact ⟨_, step_of_fetch_noOpcode hr hf⟩
    | .operandPastEnd op n => exact ⟨_, step_of_fetch_truncated hr hf⟩
  · exact ⟨s, step_of_terminal hr⟩

end Sys2Proof.Machine
end

section
/-! The family `40_cycle.md`: STEP's result, and RUN. -/

namespace Sys2Proof.Machine

variable {s t u : State}

/-! ### STEP's result -/

/-- Settles O11: a terminal engine stays so, and a running one halts exactly on HLT's byte (O36). -/
theorem stepResultIsFalseExactlyAtTheEnd : Obligations.StepResultIsFalseExactlyAtTheEnd := by
  intro s t hstep
  obtain ⟨hterminal, hrunning⟩ := statusTransitions s t hstep
  rw [continues_eq_false]
  by_cases hr : s.status = .running
  · rw [Status.ne_running, hrunning hr]
    exact (or_iff_right (absurd hr)).symm
  · rw [hterminal hr]
    exact iff_of_true hr (.inl hr)

/-! ### RUN -/

/-- A STEP answers one state. -/
theorem step_unique (ht : step s = .next t) (hu : step s = .next u) : t = u :=
  Host.Outcome.next.inj (ht.symm.trans hu)

/-- RUN ends in a terminal state (R108). -/
theorem RunTo.not_running (h : RunTo s t) : t.status ≠ .running := by
  induction h with
  | last _ stop => exact continues_eq_false.mp stop
  | more _ _ _ ih => exact ih

/-- RUN ends in one state. -/
theorem RunTo.unique (ht : RunTo s t) : RunTo s u → u = t := by
  induction ht with
  | last h stop =>
    rintro (⟨h', -⟩ | ⟨h', go, -⟩)
    · exact step_unique h' h
    · obtain rfl := step_unique h' h
      exact absurd (stop.symm.trans go) Bool.false_ne_true
  | more h go _ ih =>
    rintro (⟨h', stop⟩ | ⟨h', -, rest⟩)
    · obtain rfl := step_unique h' h
      exact absurd (stop.symm.trans go) Bool.false_ne_true
    · obtain rfl := step_unique h' h
      exact ih rest

/-- RUN of a terminal engine ends where it began (R102). -/
theorem runTo_self (h : s.status ≠ .running) : RunTo s s :=
  .last (step_of_terminal h) (continues_eq_false.mpr h)

/-- Settles O49: a RUN begun in the state where RUN ended ends there, and nowhere else. -/
theorem runEndsInOneTerminalState : Obligations.RunEndsInOneTerminalState := by
  intro s t h
  have hself : RunTo t t := runTo_self h.not_running
  refine ⟨Status.ne_running.mp h.not_running, fun u => h.unique, fun u => ⟨hself.unique, ?_⟩⟩
  rintro rfl
  exact hself

/-- Under fuel, a STEP that returns false ends RUN. -/
theorem runFuel_of_stop (n : Nat) (h : step s = .next t) (stop : HostOp.continues t = false) :
    HostOp.runFuel (n + 1) s = some t := by
  simp [HostOp.runFuel, h, stop]

/-- Under fuel, a STEP that returns true takes one unit of it. -/
theorem runFuel_of_go (n : Nat) (h : step s = .next t) (go : HostOp.continues t = true) :
    HostOp.runFuel (n + 1) s = HostOp.runFuel n t := by
  simp [HostOp.runFuel, h, go]

/-- RUN takes one unit of fuel for each of its STEPs. -/
theorem RunTo.exists_runFuel (h : RunTo s t) : ∃ n, HostOp.runFuel n s = some t := by
  induction h with
  | last h stop => exact ⟨1, runFuel_of_stop 0 h stop⟩
  | more h go _ ih =>
    obtain ⟨n, hn⟩ := ih
    exact ⟨n + 1, (runFuel_of_go n h go).trans hn⟩

/-- What RUN answers under fuel, it ends in. -/
theorem runTo_of_runFuel : ∀ {n : Nat} {s : State}, HostOp.runFuel n s = some t → RunTo s t
  | 0, _, hn => nomatch hn
  | n + 1, s, hn => by
    obtain ⟨u, hu⟩ := everyStepAnswersANextState s
    cases hc : HostOp.continues u with
    | false =>
      obtain rfl : u = t := Option.some.inj ((runFuel_of_stop n hu hc).symm.trans hn)
      exact .last hu hc
    | true => exact .more hu hc (runTo_of_runFuel ((runFuel_of_go n hu hc).symm.trans hn))

/-- Settles O50, by induction on RUN and on the fuel. -/
theorem fuelledRunComputesRun : Obligations.FuelledRunComputesRun :=
  fun _ _ => ⟨RunTo.exists_runFuel, fun ⟨_, hn⟩ => runTo_of_runFuel hn⟩

/-- A RUN that ends does not begin with a STEP that returns true and changes nothing. -/
theorem RunTo.not_running_of_fixed (h : RunTo s t) : step s = .next s → s.status ≠ .running := by
  induction h with
  | last h stop =>
    intro hfix
    obtain rfl := step_unique h hfix
    exact continues_eq_false.mp stop
  | more h go _ ih =>
    intro hfix
    obtain rfl := step_unique h hfix
    exact ih hfix

/-- JMPB by 2 comes back to its own first byte (R142). -/
theorem execJmpb_two {r : Fin 32} (hpc : u32 s.pc + 2 ≤ 2 ^ 31) (hv : s32 (s.reg r) = 2) :
    execJmpb (regByte r) s = .next s := by
  have hnn : 0 ≤ s32 ((s.advance 2).reg r) := by rw [State.advance_reg]; omega
  have hdist : u32 ((s.advance 2).reg r) = 2 := by rw [← toNat_s32 hnn, State.advance_reg, hv]; rfl
  have hend : u32 (s.advance 2).pc = u32 s.pc + 2 := u32_advance (by omega)
  rw [execJmpb, withReg_regByte, withJumpOperand_of_nonneg hnn, hdist, hend, if_neg (by omega), Nat.add_sub_cancel]
  simp [State.setPc, u32]

/-- Settles O51: the STEP answers the state it began in, which is running, so RUN begins again and again. -/
theorem jmpbBackToItselfRunsForEver : Obligations.JmpbBackToItselfRunsForEver := by
  intro s r hr hpc hbytes hv
  have hstep : step s = .next s :=
    (stepRunsTheDecodedInstruction s _ [] (.jmpb (regByte r)) hr hbytes rfl).trans (execJmpb_two hpc hv)
  exact ⟨hstep, fun ⟨_, hrun⟩ => hrun.not_running_of_fixed hstep hr⟩

end Sys2Proof.Machine
end

section
/-! The family `41_load.md`: what LOAD does, its encoding and its faults. -/

namespace Sys2Proof

open Machine

/-- An immediate is the number of its two bytes, the high one first (R44, R63). -/
theorem toNat_eq_hi8_lo8 (v : Half) : v.toNat = (hi8 v).toNat * 256 + (lo8 v).toNat := by
  rw [← toNat_be16, be16_hi8_lo8]

/-- The first three bytes of a LOAD hold no more of its immediate than the high byte (R63). -/
theorem take_three_encode_load (r hi lo : Byte) : (encode (.load r (be16 hi lo))).take 3 = [0x01, r, hi] := by
  simp [encode, Instr.opcode, Instr.operandBytes]

/-- Settles O12: the operation by LOAD's equation, the register fault by O9, and each of the three program ends by O8,
for a LOAD that begins with the bytes that are there. -/
theorem loadZeroExtendsTheImmediate : Obligations.LoadZeroExtendsTheImmediate := by
  refine ⟨?operation, ?encoding, ?badRegister, ?truncated⟩
  case operation =>
    intro d imm s
    refine ⟨_, exec_load_regByte d imm s, ?_, writesOnlyReg_setReg d _ s⟩
    rw [State.setReg_reg_same, u32_zext32_half]
  case encoding => exact fun _ imm => ⟨hi8 imm, lo8 imm, rfl, toNat_eq_hi8_lo8 imm⟩
  case badRegister => exact fun r imm s hb => badRegisterFieldFaults s (.load r imm) r (List.mem_singleton_self r) hb
  case truncated =>
    intro s hr
    refine ⟨fun h => ?noRegister, fun r h => ?noImmediate, fun r hi h => ?halfImmediate⟩
    case noRegister => exact truncatedInstructionFaults s (.load 0 0) 1 hr (by decide) (by decide) h
    case noImmediate => exact truncatedInstructionFaults s (.load r 0) 2 hr (by decide) (by decide : 2 < 4) h
    case halfImmediate =>
      rw [← take_three_encode_load r hi 0] at h
      exact truncatedInstructionFaults s (.load r (be16 hi 0)) 3 hr (by decide) (by decide : 3 < 4) h

end Sys2Proof
end

section
/-! The family `42_arithmetic.md`: ADD, SUB, MUL and DIV on registers. -/

namespace Sys2Proof.Machine

/-! ### ADD, SUB and MUL -/

/-- A wrapping operation on three registers completes with the exact result modulo 2^32 (R130 to R132, R135). -/
theorem wrapArith_completes (op : Byte) (f : Int → Int → Int) (a b d : Fin 32) (s : State) :
    ∃ t, wrapArith op f (regByte a) (regByte b) (regByte d) s = .next t ∧
      (u32 (t.reg d) : Int) = f (s32 (s.reg a)) (s32 (s.reg b)) % 2 ^ 32 ∧ WritesOnlyReg d s t := by
  refine ⟨_, wrapArith_regByte op f a b d s, ?_, writesOnlyReg_setReg d _ s⟩
  rw [State.setReg_reg_same, u32_wrap32]

/-- Settles O14: the wrapping operation whose exact result is the sum. -/
theorem addWritesTheSumModulo2Pow32 : Obligations.AddWritesTheSumModulo2Pow32 :=
  wrapArith_completes 0x02 (fun a b => a + b)

/-- Settles O15: the wrapping operation whose exact result is the difference. -/
theorem subWritesTheDifferenceModulo2Pow32 : Obligations.SubWritesTheDifferenceModulo2Pow32 :=
  wrapArith_completes 0x03 (fun a b => a - b)

/-- Settles O16: the wrapping operation whose exact result is the product. -/
theorem mulWritesTheProductModulo2Pow32 : Obligations.MulWritesTheProductModulo2Pow32 :=
  wrapArith_completes 0x04 (fun a b => a * b)

variable (v w : Word)

/-- A pattern's number wraps to the pattern (R9). -/
theorem wrap32_s32 : wrap32 (s32 v) = v := BitVec.ofInt_toInt

theorem wrap32_add : wrap32 (s32 v + s32 w) = v + w :=
  BitVec.eq_of_toInt_eq ((BitVec.toInt_ofInt _).trans (BitVec.toInt_add v w).symm)

theorem wrap32_sub : wrap32 (s32 v - s32 w) = v - w :=
  BitVec.eq_of_toInt_eq ((BitVec.toInt_ofInt _).trans BitVec.toInt_sub.symm)

theorem wrap32_mul : wrap32 (s32 v * s32 w) = v * w :=
  BitVec.eq_of_toInt_eq ((BitVec.toInt_ofInt _).trans (BitVec.toInt_mul v w).symm)

/-- A wrapping operation leaves in `d` the pattern that its exact result wraps to. -/
theorem wrapArith_pattern (op : Byte) {f : Int → Int → Int} {g : Word → Word → Word}
    (hfg : ∀ v w, wrap32 (f (s32 v) (s32 w)) = g v w) (a b d : Fin 32) (s : State) :
    ∃ t, wrapArith op f (regByte a) (regByte b) (regByte d) s = .next t ∧ t.reg d = g (s.reg a) (s.reg b) := by
  refine ⟨_, wrapArith_regByte op f a b d s, ?_⟩
  rw [State.setReg_reg_same, hfg]

/-- Settles O17: the bit-vector operations are those of the signed numbers, wrapped. -/
theorem wrappingArithmeticIgnoresSignedness : Obligations.WrappingArithmeticIgnoresSignedness :=
  fun a b d s => ⟨wrapArith_pattern 0x02 wrap32_add a b d s, wrapArith_pattern 0x03 wrap32_sub a b d s,
    wrapArith_pattern 0x04 wrap32_mul a b d s⟩

/-! ### DIV on three good registers, by what it finds in its operands (R133) -/

theorem withReg3_regByte {op : Byte} {ipc : Word} {s : State} (a b d : Fin 32) (k : Fin 32 → Fin 32 → Fin 32 → Result) :
    withReg3 op ipc (regByte a) (regByte b) (regByte d) s k = k a b d := by
  simp only [withReg3, withReg_regByte]

variable {a b d : Fin 32} {s : State}

/-- A zero divisor raises DIV_BY_ZERO (R185). -/
theorem exec_div_of_zero (hb : s32 (s.reg b) = 0) :
    exec (.div (regByte a) (regByte b) (regByte d)) s = raise .divByZero 0x05 s.pc (s.advance 4) :=
  (withReg3_regByte a b d _).trans (if_pos hb)

/-- The one quotient that does not fit raises DIV_OVERFLOW (R186). -/
theorem exec_div_of_overflow (ha : s32 (s.reg a) = -2 ^ 31) (hb : s32 (s.reg b) = -1) :
    exec (.div (regByte a) (regByte b) (regByte d)) s = raise .divOverflow 0x05 s.pc (s.advance 4) :=
  (withReg3_regByte a b d _).trans ((if_neg (by omega)).trans (if_pos ⟨ha, hb⟩))

/-- Every other DIV completes: its remainder is the library's `Int.tmod`. -/
theorem exec_div_completes (hb : s32 (s.reg b) ≠ 0) (hov : ¬(s32 (s.reg a) = -2 ^ 31 ∧ s32 (s.reg b) = -1)) :
    exec (.div (regByte a) (regByte b) (regByte d)) s =
      .next (((s.advance 4).setReg d (wrap32 (truncDiv (s32 (s.reg a)) (s32 (s.reg b))))).setRem
        (wrap32 ((s32 (s.reg a)).tmod (s32 (s.reg b))))) := by
  rw [Int.tmod_def, Int.mul_comm]
  exact (withReg3_regByte a b d _).trans ((if_neg hb).trans (if_neg hov))

/-- Settles O19, by DIV's equation for each of its two faults. -/
theorem divFaultsOnZeroAndOnOverflow : Obligations.DivFaultsOnZeroAndOnOverflow := by
  intro a b d s
  refine ⟨fun hb => ?zero, fun ha hb => ?overflow⟩
  case zero =>
    rw [exec_div_of_zero hb]
    exact faults_raise .divByZero 0x05 4 s
  case overflow =>
    rw [exec_div_of_overflow ha hb]
    exact faults_raise .divOverflow 0x05 4 s

/-! ### The quotient and the remainder as numbers -/

/-- The truncated quotient fits into 32 bits but for -2^31 / -1: it is the number of a pattern (R133, R136). -/
theorem s32_wrap32_truncDiv {v w : Word} (hov : ¬(s32 v = -2 ^ 31 ∧ s32 w = -1)) :
    s32 (wrap32 (truncDiv (s32 v) (s32 w))) = truncDiv (s32 v) (s32 w) := by
  have hne : v ≠ BitVec.intMin 32 ∨ w ≠ -1#32 := by
    by_contra! h
    obtain ⟨rfl, rfl⟩ := h
    exact hov ⟨rfl, rfl⟩
  have hq : truncDiv (s32 v) (s32 w) = s32 (v.sdiv w) := (BitVec.toInt_sdiv_of_ne_or_ne v w hne).symm
  rw [hq, wrap32_s32]

/-- The remainder always fits into 32 bits (R133). -/
theorem s32_wrap32_tmod (v w : Word) : s32 (wrap32 ((s32 v).tmod (s32 w))) = (s32 v).tmod (s32 w) := by
  have hr : (s32 v).tmod (s32 w) = s32 (v.srem w) := (BitVec.toInt_srem v w).symm
  rw [hr, wrap32_s32]

theorem abs_tmod_lt_abs (m : Int) {n : Int} (hn : n ≠ 0) : |m.tmod n| < |n| := by
  have hlt : m.natAbs % n.natAbs < n.natAbs := Nat.mod_lt _ (Int.natAbs_pos.mpr hn)
  rw [Int.abs_eq_natAbs, Int.abs_eq_natAbs, Int.natAbs_tmod]
  exact_mod_cast hlt

/-- The remainder of the division rounded toward zero has the dividend's sign (R137). -/
theorem tmod_eq_zero_or_sign_tmod (m n : Int) : m.tmod n = 0 ∨ (m.tmod n).sign = m.sign := by
  by_cases hdvd : n ∣ m
  · exact .inl (Int.tmod_eq_zero_of_dvd hdvd)
  · exact .inr (by rw [Int.sign_tmod, if_neg hdvd])

/-- `rem` is none of the control fields (R22, R29). -/
theorem SameControl.setRem {t : State} (h : SameControl s t) (r : Word) : SameControl s (t.setRem r) :=
  ⟨h.status, h.fcause, h.fopcode, h.fpc, h.prog⟩

/-- Settles O18: `q` and `r` are the library's truncated quotient and remainder, and both fit into 32 bits. -/
theorem divWritesTheTruncatedQuotientAndRemainder : Obligations.DivWritesTheTruncatedQuotientAndRemainder := by
  intro a b d s hb hov
  have hw := writesOnlyReg_setReg d (wrap32 (truncDiv (s32 (s.reg a)) (s32 (s.reg b)))) s
  refine ⟨_, exec_div_completes hb hov, truncDiv (s32 (s.reg a)) (s32 (s.reg b)),
    (s32 (s.reg a)).tmod (s32 (s.reg b)), (Int.tdiv_mul_add_tmod _ _).symm, abs_tmod_lt_abs _ hb,
    tmod_eq_zero_or_sign_tmod _ _, ?quotient, ?remainder, hw.regs, rfl, rfl, hw.control.setRem _⟩
  case quotient => rw [State.setRem_reg, State.setReg_reg_same, s32_wrap32_truncDiv hov]
  case remainder => rw [State.setRem_rem, s32_wrap32_tmod]

end Sys2Proof.Machine
end

section
/-! The family `43_jumps.md`: JMP, JMPF and JMPB on a good register, by the number it holds. -/

namespace Sys2Proof.Machine

variable {s : State} {r : Fin 32}

/-! ### What the jumps share -/

/-- Setting `pc` writes nothing else. -/
theorem writesOnlyPc_setPc (a : Word) (s : State) : WritesOnlyPc s (s.setPc a) where
  regs _ := rfl
  eqf := rfl
  rem := rfl
  control := ⟨rfl, rfl, rfl, rfl, rfl, fun _ => rfl⟩

/-- A jump on a negative register faults with `pc` past its two bytes (R143, R191). -/
theorem faults_of_neg_jumpOperand {op : Byte} {k : Nat → Result} (h : s32 (s.reg r) < 0) :
    Faults (withJumpOperand op s.pc r (s.advance 2) k) 8 op (s.pc + 2) s := by
  rw [withJumpOperand_of_neg (s := s.advance 2) h]
  exact faults_raise .negJumpOperand op 2 s

/-- A jump on any other register goes on with the register's number, which is below 2^31 (R9, R143). -/
theorem jumpOperand_of_nonneg {op : Byte} {ipc : Word} {k : Nat → Result} (h : 0 ≤ s32 (s.reg r)) :
    ∃ v : Nat, s32 (s.reg r) = v ∧ v < 2 ^ 31 ∧ withJumpOperand op ipc r (s.advance 2) k = k v := by
  have hv : s32 (s.reg r) = u32 (s.reg r) := by rw [← toNat_s32 h, Int.toNat_of_nonneg h]
  have hlt := s32_lt (s.reg r)
  exact ⟨u32 (s.reg r), hv, by omega, withJumpOperand_of_nonneg (s := s.advance 2) h k⟩

/-! ### Each jump on a good register byte -/

theorem exec_jmp_regByte (r : Fin 32) (s : State) : exec (.jmp (regByte r)) s =
    withJumpOperand 0x07 s.pc r (s.advance 2) fun v => .next (s.setPc (BitVec.ofNat 32 v)) :=
  withReg_regByte r _

theorem exec_jmpf_regByte (r : Fin 32) (s : State) : exec (.jmpf (regByte r)) s =
    withJumpOperand 0x08 s.pc r (s.advance 2) fun v => .next ((s.advance 2).advance v) :=
  withReg_regByte r _

/-- JMPB counts from the number ipc + 2, which has not wrapped (R26, R142). -/
theorem exec_jmpb_regByte (r : Fin 32) (hpc : u32 s.pc + 2 ≤ 2 ^ 31) : exec (.jmpb (regByte r)) s =
    withJumpOperand 0x09 s.pc r (s.advance 2) fun v =>
      if v > u32 s.pc + 2 then raise .pcUnderflow 0x09 s.pc (s.advance 2)
      else .next (s.setPc (BitVec.ofNat 32 (u32 s.pc + 2 - v))) := by
  rw [← u32_advance (n := 2) (by omega)]
  exact withReg_regByte r _

/-- Settles O20, by the sign of the register. -/
theorem jmpJumpsToTheRegister : Obligations.JmpJumpsToTheRegister := by
  intro r s
  rw [exec_jmp_regByte]
  refine ⟨fun h => ?completes, faults_of_neg_jumpOperand⟩
  case completes =>
    obtain ⟨v, hv, hlt, hk⟩ := jumpOperand_of_nonneg h
    refine ⟨_, hk, ?_, writesOnlyPc_setPc _ s⟩
    rw [State.setPc_pc, u32_ofNat (by omega), hv]

/-- Settles O21, by the sign of the register: neither the advance past the two bytes nor the one by the distance
wraps. -/
theorem jmpfJumpsForward : Obligations.JmpfJumpsForward := by
  intro r s hpc
  rw [exec_jmpf_regByte]
  refine ⟨fun h => ?completes, faults_of_neg_jumpOperand⟩
  case completes =>
    obtain ⟨v, hv, hlt, hk⟩ := jumpOperand_of_nonneg h
    have hend : u32 (s.advance 2).pc = u32 s.pc + 2 := u32_advance (by omega)
    have htarget : u32 ((s.advance 2).advance v).pc = u32 (s.advance 2).pc + v := u32_advance (by omega)
    exact ⟨_, hk, by omega, writesOnlyPc_setPc _ s⟩

/-- Settles O22, by the sign of the register and by JMPB's comparison with ipc + 2. -/
theorem jmpbJumpsBackward : Obligations.JmpbJumpsBackward := by
  intro r s hpc
  rw [exec_jmpb_regByte r hpc]
  refine ⟨fun h hle => ?completes, fun hgt => ?underflow, faults_of_neg_jumpOperand⟩
  case completes =>
    obtain ⟨v, hv, -, hk⟩ := jumpOperand_of_nonneg h
    refine ⟨_, hk.trans (if_neg (by omega)), ?_, writesOnlyPc_setPc _ s⟩
    rw [State.setPc_pc, u32_ofNat (by omega)]
    omega
  case underflow =>
    obtain ⟨v, hv, -, hk⟩ := jumpOperand_of_nonneg (s := s) (r := r) (by omega)
    rw [hk, if_pos (by omega)]
    exact faults_raise .pcUnderflow 0x09 2 s

end Sys2Proof.Machine
end

section
/-! The family `44_compare.md`: the six comparisons on good registers, and their spare byte. -/

namespace Sys2Proof.Machine

/-! ### The flag they write -/

/-- Setting `eqf` on the way past a 4-byte instruction changes it and `pc` alone (44_compare.md's preamble). -/
theorem writesOnlyFlag_setEqf (e : Bool) (s : State) : WritesOnlyFlag s ((s.advance 4).setEqf e) where
  regs _ := rfl
  pc := rfl
  rem := rfl
  control := ⟨rfl, rfl, rfl, rfl, rfl, fun _ => rfl⟩

/-- A comparison whose truth value `f` decides the relation `R` leaves in `eqf` whether `R` holds of the registers'
signed values, the first register on the left. -/
theorem compareRegs_completes (op : Byte) {f : Int → Int → Bool} {R : Int → Int → Prop}
    (hf : ∀ m n, f m n = true ↔ R m n) (a b : Fin 32) (s : State) :
    ∃ t, compareRegs op f (regByte a) (regByte b) s = .next t ∧
      (t.eqf = true ↔ R (s32 (s.reg a)) (s32 (s.reg b))) ∧ WritesOnlyFlag s t :=
  ⟨_, compareRegs_regByte op f a b s, hf _ _, writesOnlyFlag_setEqf _ s⟩

variable (m n : Int)

theorem flagEq_iff : flagEq m n = true ↔ m = n := decide_eq_true_iff
theorem flagNeq_iff : flagNeq m n = true ↔ m ≠ n := decide_eq_true_iff
theorem flagGt_iff : flagGt m n = true ↔ m > n := decide_eq_true_iff
theorem flagLt_iff : flagLt m n = true ↔ m < n := decide_eq_true_iff
theorem flagGteq_iff : flagGteq m n = true ↔ m ≥ n := decide_eq_true_iff
theorem flagLteq_iff : flagLteq m n = true ↔ m ≤ n := decide_eq_true_iff

/-- Settles O27: each is the comparison whose truth value decides its relation, and the spare byte is not in its
meaning. -/
theorem eqAndNeqWriteTheFlag : Obligations.EqAndNeqWriteTheFlag := fun a b _ s =>
  ⟨compareRegs_completes 0x0A flagEq_iff a b s,
    compareRegs_completes 0x0B flagNeq_iff a b s⟩

/-- Settles O28: likewise for the four orderings, each relation with the first register on the left. -/
theorem orderingComparisonsWriteTheFlag : Obligations.OrderingComparisonsWriteTheFlag := fun a b _ s =>
  ⟨compareRegs_completes 0x0C flagGt_iff a b s,
    compareRegs_completes 0x0D flagLt_iff a b s,
    compareRegs_completes 0x0E flagGteq_iff a b s,
    compareRegs_completes 0x0F flagLteq_iff a b s⟩

/-! ### The spare byte -/

variable {op : Byte} {s t : State}

/-- The opcodes 10 to 15 are the comparisons: three operand bytes are read, and the last of them is not in the meaning
(R65, R66, R157). -/
theorem comparison_of_opcode (hlo : 10 ≤ op.toNat) (hhi : op.toNat ≤ 15) :
    ∃ mk : Byte → Byte → Byte → Instr, (∀ bs, decode (op :: bs) = operands3 mk op bs) ∧
      ∃ f, ∀ b1 b2 spare s, exec (mk b1 b2 spare) s = compareRegs op f b1 b2 s := by
  have hop : op = 0x0A ∨ op = 0x0B ∨ op = 0x0C ∨ op = 0x0D ∨ op = 0x0E ∨ op = 0x0F := by bv_omega
  obtain rfl | rfl | rfl | rfl | rfl | rfl := hop
  · exact ⟨.eq, fun _ => rfl, flagEq, fun _ _ _ _ => rfl⟩
  · exact ⟨.neq, fun _ => rfl, flagNeq, fun _ _ _ _ => rfl⟩
  · exact ⟨.gt, fun _ => rfl, flagGt, fun _ _ _ _ => rfl⟩
  · exact ⟨.lt, fun _ => rfl, flagLt, fun _ _ _ _ => rfl⟩
  · exact ⟨.gteq, fun _ => rfl, flagGteq, fun _ _ _ _ => rfl⟩
  · exact ⟨.lteq, fun _ => rfl, flagLteq, fun _ _ _ _ => rfl⟩

/-- A comparison writes no general register, whether it completes or faults (R22). -/
theorem sameRegs_of_compareRegs {f : Int → Int → Bool} {r1 r2 : Byte} (h : compareRegs op f r1 r2 s = .next t) :
    SameRegs s t := by
  obtain ⟨-, rfl⟩ | ⟨a, b, -, -, hk⟩ := withReg2_next h
  · exact fun _ => rfl
  · obtain rfl := by simpa using hk.symm
    exact fun _ => rfl

/-- Where the program ends within the bytes of a fetch, the fetch decodes the bytes before the end (R41, R48). -/
theorem fetch_of_progEndsAfter {bs : List Byte} (hlen : bs.length ≤ maxInstrBytes) (h : ProgEndsAfter s bs) :
    s.fetch = decode bs := by
  rw [State.fetch, State.fetchBytes, bytesFrom_of_end hlen h.1 h.2]

/-- Settles O29: the decoder reads the spare byte, the meaning does not, and neither does the meaning read the rest of
the program. -/
theorem spareByteIsReadAndIgnored : Obligations.SpareByteIsReadAndIgnored := by
  intro op b1 b2 s hlo hhi hr
  obtain ⟨mk, hdecode, f, hexec⟩ := comparison_of_opcode hlo hhi
  refine ⟨fun hends => ?missing, fun spare spare' prog' hbytes hbytes' => ?ignored⟩
  case missing =>
    have hf : s.fetch = decode [op, b1, b2] := fetch_of_progEndsAfter (bs := [op, b1, b2]) (by decide : 3 ≤ 4) hends
    rw [hdecode] at hf
    rw [step_of_fetch_truncated hr hf]
    exact faults_raise .operandPastEnd op 3 s
  case ignored =>
    have hstep : step s = exec (mk b1 b2 spare) s := stepRunsTheDecodedInstruction s _ [] _ hr hbytes (hdecode _)
    have hstep' : step (s.setProg prog') = exec (mk b1 b2 spare') (s.setProg prog') :=
      stepRunsTheDecodedInstruction (s.setProg prog') _ [] _ hr hbytes' (hdecode _)
    obtain ⟨t, ht⟩ := exec_answers (mk b1 b2 spare) s
    have ht' : exec (mk b1 b2 spare') (s.setProg prog') = .next (t.setProg prog') := by
      rw [hexec, ← hexec b1 b2 spare]
      exact exec_setProg ht prog'
    exact ⟨t, hstep.trans ht, hstep'.trans ht', sameRegs_of_compareRegs (hexec b1 b2 spare s ▸ ht)⟩

end Sys2Proof.Machine
end

section
/-! The family `45_cond_jumps.md`: JEQ and JNEQ on a good register, by the flag and the number the register holds. -/

namespace Sys2Proof.Machine

variable {s : State} {r : Fin 32}

/-! ### What the conditional jumps share -/

/-- Taken, a conditional jump on a good register is JMP's jump under its own opcode byte (R160, R161). -/
theorem condJump_taken (op : Byte) (r : Fin 32) (s : State) : condJump op true (regByte r) s =
    withJumpOperand op s.pc r (s.advance 2) fun v => .next (s.setPc (BitVec.ofNat 32 v)) :=
  withReg_regByte r _

/-- Not taken, it goes on past its two bytes without reading the register's value (R162). -/
theorem condJump_not_taken (op : Byte) (r : Fin 32) (s : State) :
    condJump op false (regByte r) s = .next (s.advance 2) :=
  withReg_regByte r _

theorem condJump_taken_completes (op : Byte) (h : 0 ≤ s32 (s.reg r)) :
    ∃ t, condJump op true (regByte r) s = .next t ∧ (u32 t.pc : Int) = s32 (s.reg r) ∧ WritesOnlyPc s t := by
  obtain ⟨v, hv, hlt, hk⟩ := jumpOperand_of_nonneg h
  refine ⟨_, (condJump_taken op r s).trans hk, ?_, writesOnlyPc_setPc _ s⟩
  rw [State.setPc_pc, u32_ofNat (by omega), hv]

theorem condJump_taken_faults (op : Byte) (h : s32 (s.reg r) < 0) :
    Faults (condJump op true (regByte r) s) 8 op (s.pc + 2) s := by
  rw [condJump_taken]
  exact faults_of_neg_jumpOperand h

theorem condJump_falls_through (op : Byte) (r : Fin 32) (s : State) :
    ∃ t, condJump op false (regByte r) s = .next t ∧ t.pc = s.pc + 2 ∧ WritesOnlyPc s t :=
  ⟨_, condJump_not_taken op r s, rfl, writesOnlyPc_setPc _ s⟩

/-! ### Each conditional jump, by the flag -/

/-- JEQ is taken where the flag is set (R160). -/
theorem exec_jeq_of_eqf {e : Bool} (he : s.eqf = e) (b : Byte) : exec (.jeq b) s = condJump 0x10 e b s := by
  rw [← he]
  rfl

/-- JNEQ is taken where the flag is clear (R161). -/
theorem exec_jneq_of_eqf {e : Bool} (he : s.eqf = e) (b : Byte) : exec (.jneq b) s = condJump 0x11 (!e) b s := by
  rw [← he]
  rfl

/-- Settles O23, by the flag and, where it is set, by the sign of the register. -/
theorem jeqJumpsWhenTheFlagIsSet : Obligations.JeqJumpsWhenTheFlagIsSet := by
  intro r s
  refine ⟨fun he h => ?completes, fun he h => ?faults, fun he => ?fallsThrough⟩ <;> rw [exec_jeq_of_eqf he]
  case completes => exact condJump_taken_completes 0x10 h
  case faults => exact condJump_taken_faults 0x10 h
  case fallsThrough => exact condJump_falls_through 0x10 r s

/-- Settles O24, by the flag and, where it is clear, by the sign of the register. -/
theorem jneqJumpsWhenTheFlagIsClear : Obligations.JneqJumpsWhenTheFlagIsClear := by
  intro r s
  refine ⟨fun he h => ?completes, fun he h => ?faults, fun he => ?fallsThrough⟩ <;> rw [exec_jneq_of_eqf he]
  case completes => exact condJump_taken_completes 0x11 h
  case faults => exact condJump_taken_faults 0x11 h
  case fallsThrough => exact condJump_falls_through 0x11 r s

end Sys2Proof.Machine
end

section
/-! The family `46_halt_illegal.md`: HLT and the illegal opcode bytes, each as a meaning and as a STEP. -/

namespace Sys2Proof.Machine

variable {s : State} {b : Byte}

/-- HLT moves past its one byte and halts, whatever the state (R170). -/
theorem exec_hlt (s : State) : exec .hlt s = .next (s.advance 1).halt := rfl

/-- An ILLEGAL moves past its one byte and raises ILLEGAL_OPCODE, whatever the state (R171). -/
theorem exec_illegal (b : Byte) (s : State) : exec (.illegal b) s = raise .illegalOpcode b s.pc (s.advance 1) := rfl

/-- A byte at `pc` that is no opcode is fetched as ILLEGAL, whatever follows it (R71). -/
theorem fetch_of_read_illegal (h : s.prog.read (u32 s.pc) = some b) (hb : illegalOpcode b = true) :
    ∃ rest, s.fetch = .ok (.illegal b) rest := by
  rw [State.fetch, fetchBytes_of_some h]
  exact ⟨_, decode_illegal hb _⟩

/-- A STEP whose instruction does not leave the engine running returns false (R107). -/
theorem step_stops {i : Instr} {rest : List Byte} {t : State} (hr : s.status = .running) (hf : s.fetch = .ok i rest)
    (hx : exec i s = .next t) (ht : t.status ≠ .running) :
    ∃ u, step s = .next u ∧ exec i s = .next u ∧ HostOp.continues u = false :=
  ⟨t, (step_of_fetch hr hf).trans hx, hx, continues_eq_false.mpr ht⟩

/-- Settles O30: the meaning is `advance` and `halt`, and HLT's byte is all that the fetch needs. -/
theorem hltHaltsNormally : Obligations.HltHaltsNormally := by
  refine ⟨fun s => ?effect, fun s hr hread => ?stops⟩
  case effect => exact ⟨_, exec_hlt s, rfl, rfl, fun _ => rfl, rfl, rfl, rfl, rfl, rfl, rfl, fun _ => rfl⟩
  case stops =>
    obtain ⟨rest, hf⟩ := fetch_of_read_zero hread
    exact step_stops hr hf (exec_hlt s) (by simp)

/-- Settles O31: the meaning is the fault, and the opcode byte is all that the fetch needs. -/
theorem illegalOpcodeFaults : Obligations.IllegalOpcodeFaults := by
  refine ⟨fun b s => ?effect, fun b s hr hread hb => ?stops⟩
  case effect => exact faults_raise .illegalOpcode b 1 s
  case stops =>
    obtain ⟨rest, hf⟩ := fetch_of_read_illegal hread (decide_eq_true hb)
    exact step_stops hr hf (exec_illegal b s) (by simp)

end Sys2Proof.Machine
end

section
/-! The families `60_exceptions.md` and `70_reset_and_hazards.md`: what the entry of any fault writes, and RESET. -/

namespace Sys2Proof

/-! ### Only where there is no byte does a fetch find no opcode -/

theorem operandsR_ne_noOpcode (mk : Byte → Instr) (op : Byte) (bs : List Byte) : operandsR mk op bs ≠ .noOpcode := by
  rcases bs with _ | ⟨_, _⟩ <;> simp [operandsR]

theorem operandsRI_ne_noOpcode (mk : Byte → Half → Instr) (op : Byte) (bs : List Byte) :
    operandsRI mk op bs ≠ .noOpcode := by
  rcases bs with _ | ⟨_, _ | ⟨_, _ | ⟨_, _⟩⟩⟩ <;> simp [operandsRI]

theorem operands3_ne_noOpcode (mk : Byte → Byte → Byte → Instr) (op : Byte) (bs : List Byte) :
    operands3 mk op bs ≠ .noOpcode := by
  rcases bs with _ | ⟨_, _ | ⟨_, _ | ⟨_, _⟩⟩⟩ <;> simp [operands3]

/-- With an opcode byte the decoder answers an instruction or that its operands are cut short (R103, R104). -/
theorem decode_cons_ne_noOpcode (op : Byte) (bs : List Byte) : decode (op :: bs) ≠ .noOpcode := by
  unfold decode
  dsimp only
  split
  case h_1 | h_18 => simp
  case h_2 => exact operandsRI_ne_noOpcode _ _ _
  case h_7 | h_8 | h_9 | h_16 | h_17 => exact operandsR_ne_noOpcode _ _ _
  all_goals exact operands3_ne_noOpcode _ _ _

end Sys2Proof

namespace Sys2Proof.Machine

variable {s t : State} {i : Instr}

theorem read_of_fetch_noOpcode (h : s.fetch = .noOpcode) : s.prog.read (u32 s.pc) = none := by
  cases hb : s.prog.read (u32 s.pc) with
  | none => rfl
  | some b =>
    rw [State.fetch, fetchBytes_of_some hb] at h
    exact absurd h (decode_cons_ne_noOpcode _ _)

/-! ### Fault entry -/

/-- Fault entry with `pc` moved past the bytes read writes the record and nothing else (R190, R191). -/
theorem faultLeaves_enterFault (c : Cause) (op : Byte) (n : Nat) (s : State) :
    FaultLeaves c.code op (s.advance n).pc s ((s.advance n).enterFault c op s.pc) :=
  ⟨rfl, rfl, rfl, rfl, rfl, fun _ => rfl, rfl, rfl, rfl, fun _ => rfl⟩

/-- An instruction that a running engine executes leaves it FAULTED only by fault entry, and its cause is not that there
was no opcode byte (R105, R106). -/
theorem Effect.eq_enterFault_of_faulted (he : Effect i s t) (hr : s.status = .running) (ht : t.status = .faulted) :
    ∃ c, c ≠ .pcPastEnd ∧ t = (s.advance i.size).enterFault c i.opcode s.pc := by
  cases he with
  | fault c hpast => exact ⟨c, hpast, rfl⟩
  | writeReg | divide | writeFlag | jump => simp [hr] at ht
  | halt => simp at ht

/-- A STEP of a running engine leaves it FAULTED only by fault entry: PC_PAST_END with opcode byte 0 where no byte lies
at `pc`, any other cause with the byte that lies there (R190). -/
theorem eq_enterFault_of_step (hr : s.status = .running) (hstep : step s = .next t) (ht : t.status = .faulted) :
    ∃ c n, t = (s.advance n).enterFault c ((s.prog.read (u32 s.pc)).getD 0) s.pc ∧
      (c = .pcPastEnd ↔ s.prog.read (u32 s.pc) = none) := by
  obtain ⟨hs, -⟩ | ⟨-, hf, rfl⟩ | ⟨op, n, -, hf, rfl⟩ | ⟨i, rest, -, hf, hx⟩ := step_cases hstep
  · exact absurd hr hs
  · exact ⟨.pcPastEnd, 0, by simp [read_of_fetch_noOpcode hf], by simp [read_of_fetch_noOpcode hf]⟩
  · exact ⟨.operandPastEnd, n, by simp [read_of_fetch_truncated hf], by simp [read_of_fetch_truncated hf]⟩
  · obtain ⟨c, hc, rfl⟩ := (exec_effect hx).eq_enterFault_of_faulted hr ht
    exact ⟨c, i.size, by simp [read_of_fetch_ok hf], by simp [read_of_fetch_ok hf, hc]⟩

/-- Settles O32: the STEP entered a fault, which writes the record alone; the codes are 1 to 8, and 2 is
PC_PAST_END's. -/
theorem faultEntryWritesOnlyTheRecord : Obligations.FaultEntryWritesOnlyTheRecord := by
  intro s t hr hstep ht
  obtain ⟨c, n, rfl, hpast⟩ := eq_enterFault_of_step hr hstep ht
  obtain ⟨hlow, hhigh⟩ := c.code_bounds
  exact ⟨faultLeaves_enterFault c _ n s, hlow, hhigh, Cause.code_eq_two.trans hpast⟩

/-! ### RESET -/

/-- Settles O43: RESET answers `State.reset` in every state, whose other fields are zero, RUNNING and empty too. -/
theorem resetClearsFlagRemStatusAndRecord : Obligations.ResetClearsFlagRemStatusAndRecord :=
  fun _ => ⟨rfl, rfl, rfl, rfl, rfl, rfl, rfl⟩

end Sys2Proof.Machine
end
